-- ==== Sys2Proof/Word.lean ====
section
/-! DEFINITION. The word types whose width spec/10_state.md fixes, and the two bytes of a 16-bit word (spec/00_scope.md
R5; spec/30_encoding.md R61). The types whose width is a parameter of the block are in Config.lean. Every value of the block is unsigned (R5), so a
word is a plain bit vector and its number is `toNat`. -/

namespace Sys2Proof

/-- A byte is 8 bits (R5). -/
abbrev Byte := BitVec 8

/-- A 16-bit word: `pkt_len`, `tx_len`, `tx_count`, and the operand `arm_spot` (R14, R27, R28, R64). -/
abbrev Half := BitVec 16

/-- `L = {hi, lo}`: the high byte in bits 15:8, the low byte in bits 7:0 (R5, R61). -/
def halfOf (hi lo : Byte) : Half := hi.setWidth 16 <<< 8 ||| lo.setWidth 16

/-- `v[7:0]`. -/
def lowByte (v : Half) : Byte := v.extractLsb' 0 8

/-- `v[15:8]`. -/
def highByte (v : Half) : Byte := v.extractLsb' 8 8

end Sys2Proof
end

