-- ==== Sys2Proof/Config.lean ====
section
/-! DEFINITION. What one instance of the block fixes (spec/00_scope.md R4), the types whose width it fixes, and
what the model leaves free: the environment's input records (R2). -/

namespace Sys2Proof

/-- ceil(log2(n)) (R4, R41). -/
def ceilLog2 (n : Nat) : Nat := if n ≤ 1 then 0 else Nat.log2 (n - 1) + 1

/-- The parameters of R4, each with the default R4 shows. `ackClass` = 0x05 is PRESUMED (R4 itself marks it as
not in the source; log entry 5). -/
structure Config where
  /-- `CAP`: payload buffer capacity, and the largest length the transmit framer accepts. -/
  cap : Nat := 276
  /-- `AW`: payload buffer address width in bits. -/
  aw : Nat := ceilLog2 cap
  /-- `SYNC1`. -/
  sync1 : Byte := 0xB5
  /-- `SYNC2`. -/
  sync2 : Byte := 0x62
  /-- `ACK_CLASS`. -/
  ackClass : Byte := 0x05
  /-- `ACK_ID`: used by no rule of the block (R134). -/
  ackId : Byte := 0x01
  /-- `NACK_ID`. -/
  nackId : Byte := 0x00
  /-- `BCW`: width of `byte_counter`. -/
  bcw : Nat := 17
  /-- `SPW`: width of `start_spot`. -/
  spw : Nat := 16
deriving DecidableEq, Repr

/-- The constraint on `CAP` (R4: 1 ≤ CAP ≤ 65535), what `AW` is (R4, R41), and the widths that the rules need:
`byte_counter` reaches 65541 and never wraps (R15), `start_spot` takes every 16-bit `arm_spot` unchanged (R72).
The last two are DEDUCED (log entry 5). -/
def Config.Legal (c : Config) : Prop :=
  1 ≤ c.cap ∧ c.cap ≤ 65535 ∧ c.aw = ceilLog2 c.cap ∧ 17 ≤ c.bcw ∧ 16 ≤ c.spw

/-- The instance the machine of this package is: every parameter at its default (log entry 5). The one place where
the instance is chosen: every type below and every operation follows it. -/
def Config.machine : Config := {}

/-- `byte_counter` is `BCW` bits wide (R4, R15). -/
abbrev ByteCount := BitVec Config.machine.bcw

/-- `start_spot` is `SPW` bits wide (R4, R24). -/
abbrev Spot := BitVec Config.machine.spw

/-- `rd_addr` is `AW` bits wide (R4, R41, R64). -/
abbrev RdAddr := BitVec Config.machine.aw

/-- The width of the input word `IN`: `85 + AW` bits (R64). -/
abbrev Config.inWidth (c : Config) : Nat := 85 + c.aw

/-- The input word `IN` (R64). -/
abbrev InWord := BitVec Config.machine.inWidth

/-- FREE VALUE (R2; log entry 1): the input word the environment drives in clock cycle `n` when the
state's input script lists none. Nothing constrains it. -/
opaque Config.drawWord : Nat → InWord

/-- FREE VALUE (R2; log entries 1, 2): whether the host takes `rd_data` in cycle `n`, where the script lists
no record. -/
opaque Config.drawTakesPayload : Nat → Bool

/-- FREE VALUE (R2; log entries 1, 2): whether the host takes the status outputs in cycle `n`, where the
script lists no record. -/
opaque Config.drawTakesStatus : Nat → Bool

end Sys2Proof
end

