-- ==== Sys2Proof/Syntax.lean ====
section
/-! DEFINITION. The eight operations of spec/opcode_table.json (spec/30_encoding.md R71), the fields
of the input word (R64) and the input record of one clock cycle (spec/00_scope.md R2). -/

namespace Sys2Proof

/-- The operations of the block, one constructor per row of spec/opcode_table.json. Operands are
plain unsigned fields (R65). -/
inductive Instr where
  /-- RESET (R140). -/
  | reset
  /-- ARM (R141): `arm_class`, `arm_id`, `arm_spot`. -/
  | arm (cls id : Byte) (spot : Half)
  /-- RX_BYTE (R100): `rx_data`. -/
  | rxByte (b : Byte)
  /-- TX_START (R160): `tx_class`, `tx_id`, `tx_len`. -/
  | txStart (cls id : Byte) (len : Half)
  /-- TX_STEP (R161): `tx_pay`. -/
  | txStep (pay : Byte)
  /-- IDLE (R142). -/
  | idle
  /-- READ_PAYLOAD (R44): `rd_addr`. -/
  | readPayload (rdAddr : RdAddr)
  /-- READ_STATUS (R145). -/
  | readStatus
deriving DecidableEq, Repr

/-- The fields of the input word `IN`, in R64's order from bit 0 upward. -/
structure InFields where
  txStep : Bool := false
  txStart : Bool := false
  rxValid : Bool := false
  arm : Bool := false
  rst : Bool := false
  armClass : Byte := 0
  armId : Byte := 0
  armSpot : Half := 0
  rxData : Byte := 0
  txClass : Byte := 0
  txId : Byte := 0
  txLen : Half := 0
  txPay : Byte := 0
  rdAddr : RdAddr := 0
deriving DecidableEq, Repr

/-- What the environment supplies in one clock cycle (R2): the input word, and whether the host takes
`rd_data` and the status outputs in that cycle. The outputs are live in every cycle (R44, R145), with
no strobe: READ_PAYLOAD and READ_STATUS are the host's taking of them (DESIGN CHOICE, log entry 2). -/
structure InRecord where
  word : InWord
  takesPayload : Bool := false
  takesStatus : Bool := false
deriving DecidableEq, Repr

end Sys2Proof
end

