-- ==== Sys2Proof/WellFormed.lean ====
section
/-! DEFINITION. Which instructions are well formed. Every operand value is legal but one: a read
address of `CAP` or more (spec/30_encoding.md R75; spec/20_memory.md R45). -/

namespace Sys2Proof

/-- Why an instruction is not well formed. -/
inductive WfError where
  /-- `rd_addr >= CAP` (R45, R75). -/
  | rdAddrOutOfRange (addr : RdAddr)
deriving DecidableEq, Repr

/-- The check, with its reason. -/
def Instr.wfError? : Instr → Option WfError
  | .readPayload a => if a.toNat < Config.machine.cap then none else some (.rdAddrOutOfRange a)
  | .reset | .arm _ _ _ | .rxByte _ | .txStart _ _ _ | .txStep _ | .idle | .readStatus => none

/-- The instruction is well formed. -/
def Instr.wf (i : Instr) : Bool := i.wfError? == none

end Sys2Proof
end

