-- ==== Sys2Proof/Decode.lean ====
section
/-! DEFINITION. The decoder and the encoder of the operation word (spec/30_encoding.md R64, R65,
R71 to R76). The block fetches no instructions (spec/20_memory.md R53): what is decoded is the input
word `IN` of one clock cycle, in which several strobes may be set at once (R64). -/

namespace Sys2Proof

/-- Why an input is rejected. -/
inductive DecodeError where
  /-- `rd_addr >= CAP`: the one illegal value of `IN` (R75). -/
  | rdAddrOutOfRange (addr : RdAddr)
  /-- The number has a bit above `IN`'s `85 + AW` bits: it is no input word (R64). -/
  | wordTooWide (w : Nat)
deriving DecidableEq, Repr

/-- Reads the fields of `IN` at R64's bit positions. -/
def unpackIn (w : InWord) : InFields where
  txStep := w.getLsbD 0
  txStart := w.getLsbD 1
  rxValid := w.getLsbD 2
  arm := w.getLsbD 3
  rst := w.getLsbD 4
  armClass := w.extractLsb' 5 8
  armId := w.extractLsb' 13 8
  armSpot := w.extractLsb' 21 16
  rxData := w.extractLsb' 37 8
  txClass := w.extractLsb' 45 8
  txId := w.extractLsb' 53 8
  txLen := w.extractLsb' 61 16
  txPay := w.extractLsb' 77 8
  rdAddr := w.extractLsb' 85 Config.machine.aw

/-- The operations a cycle's strobes select, in the order R143 applies them. `rst` overrides the other
strobes (R76); no strobe is IDLE (R71). -/
def strobedOps (f : InFields) : List Instr :=
  if f.rst then [.reset]
  else
    let ops :=
      (if f.arm then [Instr.arm f.armClass f.armId f.armSpot] else []) ++
      (if f.rxValid then [Instr.rxByte f.rxData] else []) ++
      (if f.txStart then [Instr.txStart f.txClass f.txId f.txLen] else []) ++
      (if f.txStep then [Instr.txStep f.txPay] else [])
    if ops.isEmpty then [.idle] else ops

/-- The reads the host takes in a cycle, alongside whatever the strobes select (R71). -/
def readOps (r : InRecord) : List Instr :=
  (if r.takesStatus then [Instr.readStatus] else []) ++
  (if r.takesPayload then [Instr.readPayload (unpackIn r.word).rdAddr] else [])

/-- A decoded cycle: the reads, which see the state before the clock edge (R44, R50), and the operations of
the clock edge. -/
structure CycleOps where
  reads : List Instr
  ops : List Instr
deriving DecidableEq, Repr

/-- The decoder: total on every input record, rejecting by name the one illegal value of `IN` (R75),
whether or not the host takes `rd_data` (log entry 4). -/
def decodeRecord (r : InRecord) : Except DecodeError CycleOps :=
  let f := unpackIn r.word
  if f.rdAddr.toNat < Config.machine.cap then .ok { reads := readOps r, ops := strobedOps f }
  else .error (.rdAddrOutOfRange f.rdAddr)

/-- The one instruction that stands for a record: its first strobed operation; where no strobe is set,
the read the host takes (`rd_data` before status), or IDLE. -/
def CycleOps.principal (d : CycleOps) : Option Instr :=
  match d.ops with
  | .idle :: _ => match d.reads.getLast? with
    | some i => some i
    | none => some .idle
  | i :: _ => some i
  | [] => none

/-- The input word of a number: rejected by name where a bit above `IN` is set (log entry 10). -/
def inWordOfNat (w : Nat) : Except DecodeError InWord :=
  if w < 2 ^ Config.machine.inWidth then .ok (BitVec.ofNat _ w) else .error (.wordTooWide w)

/-- The host's question: the instruction read from the number `w`, of which `nbits` bits are given (bit
0 of `w` is bit 0 of `IN`). A bare word carries no read (log entry 2). -/
def decodeTableWord (nbits w : Nat) : Option Instr :=
  match inWordOfNat (w % 2 ^ nbits) with
  | .error _ => none
  | .ok word => match decodeRecord { word := word } with
    | .error _ => none
    | .ok d => d.principal

/-! ### The encoder, from the same tables -/

/-- A field of width `n` with its bit 0 at bit `lo` of `IN`. -/
def atBit {n : Nat} (lo : Nat) (v : BitVec n) : InWord := v.setWidth _ <<< lo

/-- Writes the fields of `IN` at R64's bit positions. -/
def packIn (f : InFields) : InWord :=
  atBit 0 (BitVec.ofBool f.txStep) ||| atBit 1 (BitVec.ofBool f.txStart)
    ||| atBit 2 (BitVec.ofBool f.rxValid) ||| atBit 3 (BitVec.ofBool f.arm)
    ||| atBit 4 (BitVec.ofBool f.rst) ||| atBit 5 f.armClass ||| atBit 13 f.armId
    ||| atBit 21 f.armSpot ||| atBit 37 f.rxData ||| atBit 45 f.txClass ||| atBit 53 f.txId
    ||| atBit 61 f.txLen ||| atBit 77 f.txPay ||| atBit 85 f.rdAddr

/-- The fields of an instruction encoded alone; fields not named are 0 (R78). -/
def Instr.fields : Instr → InFields
  | .reset => { rst := true }
  | .arm c i sp => { arm := true, armClass := c, armId := i, armSpot := sp }
  | .rxByte b => { rxValid := true, rxData := b }
  | .txStart c i l => { txStart := true, txClass := c, txId := i, txLen := l }
  | .txStep p => { txStep := true, txPay := p }
  | .idle => {}
  | .readPayload a => { rdAddr := a }
  | .readStatus => {}

/-- The input record in which the host performs the one instruction: its strobe and operand fields, or,
for a read, the taking of the output. -/
def encode (i : Instr) : InRecord where
  word := packIn i.fields
  takesPayload := match i with | .readPayload _ => true | _ => false
  takesStatus := match i with | .readStatus => true | _ => false

end Sys2Proof
end

