-- ==== Sys2Proof/Machine/State.lean ====
section
/-! DEFINITION. The state of the block (spec/10_state.md R10 to R32; `PB` of spec/20_memory.md R41), the
model's own host side, the state after RESET (spec/43_control.md R140), and the reasons to stop. -/

namespace Sys2Proof.Machine

/-- `rx_state` (R11), every one of its 16 codes (R67). -/
inductive RxState where
  | waitSync1 | waitSync2 | waitClass | waitId | waitLen1 | waitLen2 | waitPayload
  | waitChecksumA | waitChecksumB | complete
  /-- The reserved code 0xA + k (R67): a state that holds it is a fault (R75). -/
  | reserved (k : Fin 6)
deriving DecidableEq, Repr

/-- The 4-bit code of `rx_state` (R67). -/
def RxState.code : RxState → BitVec 4
  | .waitSync1 => 0x0 | .waitSync2 => 0x1 | .waitClass => 0x2 | .waitId => 0x3 | .waitLen1 => 0x4
  | .waitLen2 => 0x5 | .waitPayload => 0x6 | .waitChecksumA => 0x7 | .waitChecksumB => 0x8
  | .complete => 0x9
  | .reserved k => BitVec.ofNat 4 (10 + k.val)

/-- `tx_state` (R25), every one of its 16 codes (R68). -/
inductive TxState where
  | txIdle | txSync1 | txSync2 | txClass | txId | txLenL | txLenH | txPayload | txCkA | txCkB
  /-- The reserved code 0xA + k (R68): a state that holds it is a fault (R75). -/
  | reserved (k : Fin 6)
deriving DecidableEq, Repr

/-- The 4-bit code of `tx_state` (R68). -/
def TxState.code : TxState → BitVec 4
  | .txIdle => 0x0 | .txSync1 => 0x1 | .txSync2 => 0x2 | .txClass => 0x3 | .txId => 0x4
  | .txLenL => 0x5 | .txLenH => 0x6 | .txPayload => 0x7 | .txCkA => 0x8 | .txCkB => 0x9
  | .reserved k => BitVec.ofNat 4 (10 + k.val)

/-- `validity` (R18). -/
inductive Validity where
  | notDefined | valid | notValid
  /-- The reserved code 0b11 (R69): a state that holds it is a fault (R75). -/
  | reserved
deriving DecidableEq, Repr

/-- The 2-bit code of `validity` (R69). -/
def Validity.code : Validity → BitVec 2
  | .notDefined => 0b00 | .valid => 0b01 | .notValid => 0b10 | .reserved => 0b11

/-- `match` (R19), the classifier's verdict. -/
inductive Verdict where
  | notDefined | valid | notValid | notAcknowledged
deriving DecidableEq, Repr

/-- The 2-bit code of `match` (R70). -/
def Verdict.code : Verdict → BitVec 2
  | .notDefined => 0b00 | .valid => 0b01 | .notValid => 0b10 | .notAcknowledged => 0b11

/-- The payload buffer `PB`, as its written bytes: addresses strictly rising, an unlisted address holding no
defined value (R46; log entry 7). -/
abbrev Memory := List Host.Cell

/-- The receive side (R11 to R24, R41). 1-bit registers are `Bool`. -/
structure Rx where
  rxState : RxState
  pktClass : Byte
  pktId : Byte
  pktLen : Half
  byteCounter : ByteCount
  ckAccA : Byte
  ckAccB : Byte
  ckRxA : Byte
  ckRxB : Byte
  validity : Validity
  /-- `match` (a keyword of Lean). -/
  matchReg : Verdict
  overwritten : Bool
  rxDone : Bool
  reqClass : Byte
  reqId : Byte
  reqValid : Bool
  startSpot : Spot
  /-- `PB`. -/
  pb : Memory
deriving DecidableEq, Repr

/-- The transmit side (R25 to R32). -/
structure Tx where
  txState : TxState
  txClass : Byte
  txId : Byte
  txLen : Half
  txCount : Half
  txAccA : Byte
  txAccB : Byte
  txInvalidArg : Bool
  txOutValid : Bool
  txOutData : Byte
  txDone : Bool
deriving DecidableEq, Repr

/-- The status outputs, one for each register, under the register's own name and width, and the derived
outputs (R66). -/
structure Status where
  rxState : BitVec 4
  pktClass : Byte
  pktId : Byte
  pktLen : Half
  byteCounter : ByteCount
  ckAccA : Byte
  ckAccB : Byte
  ckRxA : Byte
  ckRxB : Byte
  validity : BitVec 2
  matchReg : BitVec 2
  overwritten : BitVec 1
  rxDone : BitVec 1
  reqClass : Byte
  reqId : Byte
  reqValid : BitVec 1
  startSpot : Spot
  txState : BitVec 4
  txClass : Byte
  txId : Byte
  txLen : Half
  txCount : Half
  txAccA : Byte
  txAccB : Byte
  txInvalidArg : BitVec 1
  txOutValid : BitVec 1
  txOutData : Byte
  txDone : BitVec 1
  storedCount : BitVec 16
  inFrame : BitVec 1
  txBusy : BitVec 1
deriving DecidableEq, Repr

/-- The model's own part of the state, none of it the block's (R10): the environment's script of input
records, oldest first, the number of cycles taken (the index of the free input, R2), and what the host
last took from the outputs (log entries 1, 2, 3). -/
structure HostSide where
  inputs : List InRecord
  cycle : Nat
  /-- The byte of the last READ_PAYLOAD. -/
  rdData : Option Byte
  /-- The outputs of the last READ_STATUS. -/
  status : Option Status
deriving DecidableEq, Repr

/-- The machine: the block's receive and transmit sides, which share no state (R3), and the host side. -/
structure State where
  rx : Rx
  tx : Tx
  host : HostSide
deriving DecidableEq, Repr

/-- Why the machine stops with a fault. -/
inductive Fault where
  /-- READ_PAYLOAD of a byte of `PB` that no RX_BYTE has written since RESET (R46). Raised by
  `execReadPayload`. Safe: the hardware gives some unspecified byte and goes on. -/
  | unwrittenByte (addr : RdAddr)
  /-- `rx_state` holds a reserved code (R75). Raised by every operation, through `guardReserved`. Safe: no
  rule reaches such a state. -/
  | reservedRxState (code : BitVec 4)
  /-- `tx_state` holds a reserved code (R75). Raised by every operation, through `guardReserved`. Safe: no
  rule reaches such a state. -/
  | reservedTxState (code : BitVec 4)
  /-- `validity` holds the reserved code 0b11 (R69, R75). Raised by every operation, through
  `guardReserved`. Safe: no rule reaches such a state. -/
  | reservedValidity
deriving DecidableEq, Repr

/-- Why the machine refuses an input. -/
inductive Refusal where
  /-- An instruction without a meaning; no arm of `exec` answers it. Safe. -/
  | notModelled (mnemonic : String)
  /-- The decoder's rejection: an `rd_addr` of `CAP` or more (R45, R75). Raised by the cycle and by
  `execReadPayload`. Safe: the model gives no value and takes no step. -/
  | inputRejected (e : DecodeError)
deriving DecidableEq, Repr

/-- The receive side after RESET (R140; the reset values of R11 to R24). `PB` holds no defined byte (R46). -/
def Rx.reset : Rx where
  rxState := .waitSync1
  pktClass := 0x00
  pktId := 0x00
  pktLen := 0x0000
  byteCounter := 0
  ckAccA := 0x00
  ckAccB := 0x00
  ckRxA := 0x00
  ckRxB := 0x00
  validity := .notDefined
  matchReg := .notDefined
  overwritten := false
  rxDone := false
  reqClass := 0x00
  reqId := 0x00
  reqValid := false
  startSpot := 0
  pb := []

/-- The transmit side after RESET (R140; the reset values of R25 to R32). -/
def Tx.reset : Tx where
  txState := .txIdle
  txClass := 0x00
  txId := 0x00
  txLen := 0x0000
  txCount := 0x0000
  txAccA := 0x00
  txAccB := 0x00
  txInvalidArg := false
  txOutValid := false
  txOutData := 0x00
  txDone := false

/-- The host side at launch: no scripted input, cycle 0, nothing taken yet (DESIGN CHOICE, log entry 3). -/
def HostSide.reset : HostSide where
  inputs := []
  cycle := 0
  rdData := none
  status := none

/-- The machine right after RESET, which is also the launch state (R140, R200, R201; log entry 9). -/
def State.reset : State where
  rx := Rx.reset
  tx := Tx.reset
  host := HostSide.reset

end Sys2Proof.Machine
end

