-- ==== Sys2Proof/Machine/Ops.lean ====
section
/-! DEFINITION. The shared operations: the payload buffer (spec/20_memory.md R41 to R46), sequencing of
outcomes, the reserved-code check (spec/30_encoding.md R75), ClearFrame (spec/41_rx_framer.md R101), pulse
clearing (spec/43_control.md R144) and the sampling of the input record (spec/00_scope.md R2).

The block takes no exceptions and returns from none: "There is no saved state, no vector, no handler and no
mode change" (spec/60_exceptions.md R180, R185). Every error condition is a status register, written by the
operation that detects it (R181; Machine/Report.lean). -/

namespace Sys2Proof.Machine

/-! ### The payload buffer -/

/-- `MemRead(a, 1)`: the byte written at `a`; none where no RX_BYTE has written it since RESET (R43, R46). -/
def Memory.read? : Memory → Nat → Option Byte
  | [], _ => none
  | (k, v) :: m, a => if k = a then some v else Memory.read? m a

/-- `MemWrite(a, 1, v)` (R43), keeping the addresses strictly rising. -/
def Memory.write : Memory → Nat → Byte → Memory
  | [], a, v => [(a, v)]
  | (k, u) :: m, a, v =>
    if a < k then (a, v) :: (k, u) :: m
    else if a = k then (a, v) :: m
    else (k, u) :: Memory.write m a v

/-- The addresses are strictly rising, each at `lo` or above and below `cap` (R41). -/
def Memory.wfFrom (cap : Nat) : Nat → Memory → Bool
  | _, [] => true
  | lo, (k, _) :: m => decide (lo ≤ k) && decide (k < cap) && Memory.wfFrom cap (k + 1) m

/-- The canonical form of `PB`: addresses strictly rising and below `CAP`. An unlisted address holds no
defined value, so no entry can equal what it reads as. -/
def Memory.wf (c : Config) (m : Memory) : Bool := Memory.wfFrom c.cap 0 m

/-! ### Outcomes -/

/-- Goes on with `f` where the outcome is a next state; a fault or a refusal ends the cycle. -/
def andThen (o : Host.Outcome State Fault Refusal)
    (f : State → Host.Outcome State Fault Refusal) : Host.Outcome State Fault Refusal :=
  match o with
  | .next s => f s
  | .fault e => .fault e
  | .refused e => .refused e

/-! ### Reserved codes -/

/-- The fault of the first reserved code a state holds, if it holds one (R75). -/
def State.reservedFault? (s : State) : Option Fault :=
  match s.rx.rxState with
  | .reserved k => some (.reservedRxState (RxState.reserved k).code)
  | _ => match s.tx.txState with
    | .reserved k => some (.reservedTxState (TxState.reserved k).code)
    | _ => match s.rx.validity with
      | .reserved => some .reservedValidity
      | _ => none

/-- The state holds no reserved code (R75, R200). -/
def State.legal (s : State) : Bool := s.reservedFault?.isNone

/-- Every operation treats a state that holds a reserved code as a fault (R75; log entry 8). -/
def guardReserved (s : State) (k : Host.Outcome State Fault Refusal) :
    Host.Outcome State Fault Refusal :=
  match s.reservedFault? with
  | some e => .fault e
  | none => k

/-! ### Procedures over the registers -/

/-- ClearFrame (R101). -/
def clearFrame (r : Rx) : Rx :=
  { r with
    pktClass := 0x00, pktId := 0x00, pktLen := 0x0000
    byteCounter := 0
    ckAccA := 0x00, ckAccB := 0x00
    ckRxA := 0x00, ckRxB := 0x00
    validity := .notDefined
    matchReg := .notDefined
    overwritten := false }

/-- ClearPulses (R144). `tx_out_data` is not cleared. -/
def clearPulses (s : State) : State :=
  { s with
    rx := { s.rx with rxDone := false }
    tx := { s.tx with txDone := false, txOutValid := false } }

/-! ### The sampling of the input (R2, R64) -/

/-- The environment's free input record of cycle `n` (R2; log entry 1). -/
def drawnRecord (n : Nat) : InRecord where
  word := Config.drawWord n
  takesPayload := Config.drawTakesPayload n
  takesStatus := Config.drawTakesStatus n

/-- The record sampled at this clock edge: the next scripted one, or the environment's free one. -/
def State.nextInput (s : State) : InRecord :=
  match s.host.inputs with
  | r :: _ => r
  | [] => drawnRecord s.host.cycle

/-- The state once the record is sampled: only the host side moves on. -/
def State.consumeInput (s : State) : State :=
  { s with host := { s.host with inputs := s.host.inputs.tail, cycle := s.host.cycle + 1 } }

/-- The state with the record `r` as the next one to be sampled, in place of the script's first. -/
def State.withInput (s : State) (r : InRecord) : State :=
  { s with host := { s.host with inputs := r :: s.host.inputs.tail } }

end Sys2Proof.Machine
end

