-- ==== Sys2Proof/Machine/Operands.lean ====
section
/-! DEFINITION. The computed operands: the two steps of length assembly (spec/30_encoding.md R61), the
starting spot of an ARM (R72), the payload index and the storage address of a payload byte (spec/41_rx_framer.md R108). Operand fields of
`IN` are taken as they stand (spec/30_encoding.md R65, R72 to R74; Decode.lean). -/

namespace Sys2Proof.Machine

/-- `{pkt_len[15:8], b}` (R106). -/
def lenWithLow (len : Half) (b : Byte) : Half := halfOf (highByte len) b

/-- `{b, pkt_len[7:0]}` (R107). -/
def lenWithHigh (len : Half) (b : Byte) : Half := halfOf b (lowByte len)

/-- `start_spot <- arm_spot`, unchanged in value (R72): the 16-bit operand in a register of `SPW` bits. -/
def spotOf (spot : Half) : Spot := spot.setWidth _

/-- `i = byte_counter - 4`, the payload index of the byte being received (R108). It is an unbounded
integer, as R5 reads comparisons: in a state no run reaches (`byte_counter` below 4) it is negative (log entry 6). -/
def payloadIndex (r : Rx) : Int := (r.byteCounter.toNat : Int) - 4

/-- The address `i - start_spot` at which RX_BYTE in `WaitPayload` stores its byte; none where the byte is
not stored: before the starting spot, or beyond capacity (R108, R42). -/
def storeAddr? (c : Config) (r : Rx) : Option Nat :=
  let off := payloadIndex r - (r.startSpot.toNat : Int)
  if 0 ≤ off ∧ off < (c.cap : Int) then some off.toNat else none

end Sys2Proof.Machine
end

