-- ==== Sys2Proof/Machine/Control.lean ====
section
/-! DEFINITION. The control operations RESET, ARM and IDLE (spec/43_control.md R140 to R142). -/

namespace Sys2Proof.Machine

/-- RESET (R140): every register takes its reset value and `PB` loses every defined byte (R46). The host side
is not the block's and stays. -/
def execReset (s : State) : Host.Outcome State Fault Refusal :=
  guardReserved s <| .next { s with rx := Rx.reset, tx := Tx.reset }

/-- ARM on the receive side (R141). -/
def armStep (cls id : Byte) (spot : Half) (r : Rx) : Rx :=
  { clearFrame r with
    rxState := .waitSync1
    reqClass := cls
    reqId := id
    startSpot := spotOf spot
    reqValid := true }

/-- ARM (R141). -/
def execArm (cls id : Byte) (spot : Half) (s : State) : Host.Outcome State Fault Refusal :=
  guardReserved s <| .next { s with rx := armStep cls id spot s.rx }

/-- IDLE (R142): no register changes, except the pulse clearing of R144. -/
def execIdle (s : State) : Host.Outcome State Fault Refusal :=
  guardReserved s <| .next (clearPulses s)

end Sys2Proof.Machine
end

