-- ==== Sys2Proof/Machine/Classifier.lean ====
section
/-! DEFINITION. The classifier (spec/42_classifier.md R130 to R134). -/

namespace Sys2Proof.Machine

/-- `Classify` (R130): the requested pair is tested first (R132); only class and id are read (R133);
there is no ACK verdict (R134). -/
def classify (c : Config) (cls id reqClass reqId : Byte) : Verdict :=
  if cls = reqClass ∧ id = reqId then .valid
  else if cls = c.ackClass ∧ id = c.nackId then .notAcknowledged
  else .notValid

end Sys2Proof.Machine
end

