-- ==== Sys2Proof/Machine/Flags.lean ====
section
/-! DEFINITION. The flag computations of the completing step (spec/41_rx_framer.md R110) and the derived
outputs (spec/10_state.md R33; spec/30_encoding.md R66). -/

namespace Sys2Proof.Machine

/-- `verify` (R93): both checksum bytes match; `b` is checksum B, taken in this step. -/
def verify (r : Rx) (b : Byte) : Bool := r.ckAccA == r.ckRxA && r.ckAccB == b

/-- `validity` at completion: `NotValid` exactly when `verify` is false (R95, R110). -/
def validityAtCompletion (r : Rx) (b : Byte) : Validity := if verify r b then .valid else .notValid

/-- `match` at completion: the classifier runs only for a valid frame once a pair is requested (R110, R131). -/
def matchAtCompletion (c : Config) (r : Rx) (b : Byte) : Verdict :=
  if verify r b && r.reqValid then classify c r.pktClass r.pktId r.reqClass r.reqId else .notDefined

/-- `overwritten` at completion: `pkt_len > start_spot` and `pkt_len - start_spot > CAP` (R110). -/
def overwrittenAtCompletion (c : Config) (r : Rx) : Bool :=
  decide (r.pktLen.toNat > r.startSpot.toNat ∧ r.pktLen.toNat - r.startSpot.toNat > c.cap)

/-- `stored_count` = min(max(pkt_len - start_spot, 0), CAP) (R33). -/
def storedCount (c : Config) (r : Rx) : Nat := min (r.pktLen.toNat - r.startSpot.toNat) c.cap

/-- `in_frame` (R33). -/
def inFrame (r : Rx) : Bool :=
  match r.rxState with
  | .waitClass | .waitId | .waitLen1 | .waitLen2 | .waitPayload | .waitChecksumA | .waitChecksumB => true
  | .waitSync1 | .waitSync2 | .complete | .reserved _ => false

/-- `tx_busy` = (`tx_state` ≠ `TxIdle`) (R33). -/
def txBusy (t : Tx) : Bool := decide (t.txState ≠ .txIdle)

/-- The status outputs of a state: each register's value under its own width and code, and the derived
outputs (R66, R145). -/
def statusOutputs (s : State) : Status where
  rxState := s.rx.rxState.code
  pktClass := s.rx.pktClass
  pktId := s.rx.pktId
  pktLen := s.rx.pktLen
  byteCounter := s.rx.byteCounter
  ckAccA := s.rx.ckAccA
  ckAccB := s.rx.ckAccB
  ckRxA := s.rx.ckRxA
  ckRxB := s.rx.ckRxB
  validity := s.rx.validity.code
  matchReg := s.rx.matchReg.code
  overwritten := BitVec.ofBool s.rx.overwritten
  rxDone := BitVec.ofBool s.rx.rxDone
  reqClass := s.rx.reqClass
  reqId := s.rx.reqId
  reqValid := BitVec.ofBool s.rx.reqValid
  startSpot := s.rx.startSpot
  txState := s.tx.txState.code
  txClass := s.tx.txClass
  txId := s.tx.txId
  txLen := s.tx.txLen
  txCount := s.tx.txCount
  txAccA := s.tx.txAccA
  txAccB := s.tx.txAccB
  txInvalidArg := BitVec.ofBool s.tx.txInvalidArg
  txOutValid := BitVec.ofBool s.tx.txOutValid
  txOutData := s.tx.txOutData
  txDone := BitVec.ofBool s.tx.txDone
  storedCount := BitVec.ofNat 16 (storedCount Config.machine s.rx)
  inFrame := BitVec.ofBool (inFrame s.rx)
  txBusy := BitVec.ofBool (txBusy s.tx)

end Sys2Proof.Machine
end

