-- ==== Sys2Proof/Machine/ReadPort.lean ====
section
/-! DEFINITION. The host's reads: READ_PAYLOAD (spec/20_memory.md R44 to R46) and READ_STATUS
(spec/43_control.md R145). A read changes no register and no byte of `PB`; the value it gives is what the host
took, kept on the model's host side (log entry 3). -/

namespace Sys2Proof.Machine

/-- The byte `rd_data` drives for `rd_addr` = `a`: none where the value is unspecified (R44 to R46). -/
def rdPort (c : Config) (m : Memory) (a : RdAddr) : Option Byte :=
  if a.toNat < c.cap then m.read? a.toNat else none

/-- READ_PAYLOAD (R44): refused at `CAP` or above (R45), a fault on a byte never written (R46). -/
def execReadPayload (a : RdAddr) (s : State) : Host.Outcome State Fault Refusal :=
  guardReserved s <|
    if a.toNat < Config.machine.cap then
      match rdPort Config.machine s.rx.pb a with
      | some v => .next { s with host := { s.host with rdData := some v } }
      | none => .fault (.unwrittenByte a)
    else .refused (.inputRejected (.rdAddrOutOfRange a))

/-- READ_STATUS (R145). -/
def execReadStatus (s : State) : Host.Outcome State Fault Refusal :=
  guardReserved s <| .next { s with host := { s.host with status := some (statusOutputs s) } }

end Sys2Proof.Machine
end

