-- ==== Sys2Proof/Machine/Checksum.lean ====
section
/-! DEFINITION. The checksum engine (spec/40_checksum.md R90 to R94) and the frame function
(spec/44_tx_framer.md R172). -/

namespace Sys2Proof.Machine

/-- `update` (R90): both sums wrap modulo 256, and B adds the new A. -/
def update (acc : Byte × Byte) (x : Byte) : Byte × Byte :=
  let a := acc.1 + x
  (a, acc.2 + a)

/-- `compute` (R91): `update` folded from (0, 0). -/
def compute (xs : List Byte) : Byte × Byte := xs.foldl update (0, 0)

/-- The covered bytes of a frame (R92): class, id, length low, length high, then the payload. -/
def coveredBytes (cls id : Byte) (len : Half) (payload : List Byte) : List Byte :=
  cls :: id :: lowByte len :: highByte len :: payload

/-- `Frame` (R172), for a payload of at most 65535 bytes: 0xB5, 0x62, the covered bytes, A, B (R60). -/
def frame (cls id : Byte) (payload : List Byte) : List Byte :=
  let body := coveredBytes cls id (BitVec.ofNat 16 payload.length) payload
  [0xB5, 0x62] ++ body ++ [(compute body).1, (compute body).2]

end Sys2Proof.Machine
end

