-- ==== Sys2Proof/Machine/RxFramer.lean ====
section
/-! DEFINITION. The receive framer: RX_BYTE, one rule per value of `rx_state` (spec/41_rx_framer.md R100 to
R111). Every right-hand side reads the registers as they stand before the operation (spec/00_scope.md R5). -/

namespace Sys2Proof.Machine

/-- What every state from `WaitClass` to `WaitPayload` does with its byte: the checksum takes it (R92, R94)
and the counter counts it (R15). -/
def coverByte (b : Byte) (r : Rx) : Rx :=
  { r with
    ckAccA := (update (r.ckAccA, r.ckAccB) b).1
    ckAccB := (update (r.ckAccA, r.ckAccB) b).2
    byteCounter := r.byteCounter + 1 }

/-- `WaitSync1` (R102), and `Complete`, which scans for sync in the same way (R111). -/
def rxScanSync1 (c : Config) (b : Byte) (r : Rx) : Rx :=
  { r with rxState := if b = c.sync1 then .waitSync2 else .waitSync1 }

/-- `WaitSync2` (R103): on sync2 a new frame begins; any other byte is consumed, 0xB5 too. -/
def rxInWaitSync2 (c : Config) (b : Byte) (r : Rx) : Rx :=
  if b = c.sync2 then { clearFrame r with rxState := .waitClass } else { r with rxState := .waitSync1 }

/-- `WaitClass` (R104). -/
def rxInWaitClass (b : Byte) (r : Rx) : Rx := { coverByte b r with pktClass := b, rxState := .waitId }

/-- `WaitId` (R105). -/
def rxInWaitId (b : Byte) (r : Rx) : Rx := { coverByte b r with pktId := b, rxState := .waitLen1 }

/-- `WaitLen1` (R106). -/
def rxInWaitLen1 (b : Byte) (r : Rx) : Rx :=
  { coverByte b r with pktLen := lenWithLow r.pktLen b, rxState := .waitLen2 }

/-- `WaitLen2` (R107): a length of 0 skips `WaitPayload`; no length is rejected. -/
def rxInWaitLen2 (b : Byte) (r : Rx) : Rx :=
  { coverByte b r with
    pktLen := lenWithHigh r.pktLen b
    rxState := if lenWithHigh r.pktLen b = 0 then .waitChecksumA else .waitPayload }

/-- `WaitPayload` (R108). -/
def rxInWaitPayload (c : Config) (b : Byte) (r : Rx) : Rx :=
  { coverByte b r with
    pb := match storeAddr? c r with
      | some a => r.pb.write a b
      | none => r.pb
    rxState := if payloadIndex r + 1 = (r.pktLen.toNat : Int) then .waitChecksumA else .waitPayload }

/-- `WaitChecksumA` (R109). -/
def rxInWaitChecksumA (b : Byte) (r : Rx) : Rx :=
  { r with ckRxA := b, byteCounter := r.byteCounter + 1, rxState := .waitChecksumB }

/-- `WaitChecksumB` (R110): completes the frame. -/
def rxInWaitChecksumB (c : Config) (b : Byte) (r : Rx) : Rx :=
  { r with
    ckRxB := b
    byteCounter := r.byteCounter + 1
    validity := validityAtCompletion r b
    overwritten := overwrittenAtCompletion c r
    matchReg := matchAtCompletion c r b
    rxDone := true
    rxState := .complete }

/-- RX_BYTE on the receive side, by the value of `rx_state` (R100); none in a reserved state. -/
def rxByteStep (c : Config) (b : Byte) (r : Rx) : Option Rx :=
  match r.rxState with
  | .waitSync1 => some (rxScanSync1 c b r)
  | .waitSync2 => some (rxInWaitSync2 c b r)
  | .waitClass => some (rxInWaitClass b r)
  | .waitId => some (rxInWaitId b r)
  | .waitLen1 => some (rxInWaitLen1 b r)
  | .waitLen2 => some (rxInWaitLen2 b r)
  | .waitPayload => some (rxInWaitPayload c b r)
  | .waitChecksumA => some (rxInWaitChecksumA b r)
  | .waitChecksumB => some (rxInWaitChecksumB c b r)
  | .complete => some (rxScanSync1 c b r)
  | .reserved _ => none

/-- RX_BYTE (R100). -/
def execRxByte (b : Byte) (s : State) : Host.Outcome State Fault Refusal :=
  guardReserved s <|
    match rxByteStep Config.machine b s.rx with
    | some r => .next { s with rx := r }
    | none => .fault (.reservedRxState s.rx.rxState.code)

end Sys2Proof.Machine
end

