-- ==== Sys2Proof/Machine/TxFramer.lean ====
section
/-! DEFINITION. The transmit framer: TX_START (spec/44_tx_framer.md R160) and TX_STEP, one rule per value of
`tx_state` (R161 to R171). -/

namespace Sys2Proof.Machine

/-- TX_START on the transmit side (R160): a length above `CAP` is the InvalidArg condition, and keeps the old
frame registers; any other starts a frame. Either way a frame being emitted is abandoned. -/
def txStartStep (c : Config) (cls id : Byte) (len : Half) (t : Tx) : Tx :=
  if len.toNat > c.cap then { t with txInvalidArg := true, txState := .txIdle }
  else
    { t with
      txInvalidArg := false
      txClass := cls, txId := id, txLen := len
      txCount := 0
      txAccA := 0x00, txAccB := 0x00
      txState := .txSync1 }

/-- A step that emits the byte `v` (R161). -/
def emit (v : Byte) (t : Tx) : Tx := { t with txOutValid := true, txOutData := v }

/-- A step that emits the covered byte `v` and adds it to the checksum (R94). -/
def emitCovered (v : Byte) (t : Tx) : Tx :=
  { emit v t with
    txAccA := (update (t.txAccA, t.txAccB) v).1
    txAccB := (update (t.txAccA, t.txAccB) v).2 }

/-- `TxPayload` (R169). The comparison is on unbounded numbers (R5; log entry 6). -/
def txInTxPayload (p : Byte) (t : Tx) : Tx :=
  { emitCovered p t with
    txCount := t.txCount + 1
    txState := if t.txCount.toNat + 1 = t.txLen.toNat then .txCkA else .txPayload }

/-- TX_STEP on the transmit side, by the value of `tx_state` (R162 to R171); none in a reserved state. `p` is
read only in `TxPayload` (R174). -/
def txStepStep (c : Config) (p : Byte) (t : Tx) : Option Tx :=
  match t.txState with
  | .txIdle => some t
  | .txSync1 => some { emit c.sync1 t with txState := .txSync2 }
  | .txSync2 => some { emit c.sync2 t with txState := .txClass }
  | .txClass => some { emitCovered t.txClass t with txState := .txId }
  | .txId => some { emitCovered t.txId t with txState := .txLenL }
  | .txLenL => some { emitCovered (lowByte t.txLen) t with txState := .txLenH }
  | .txLenH =>
    some { emitCovered (highByte t.txLen) t with txState := if t.txLen = 0 then .txCkA else .txPayload }
  | .txPayload => some (txInTxPayload p t)
  | .txCkA => some { emit t.txAccA t with txState := .txCkB }
  | .txCkB => some { emit t.txAccB t with txDone := true, txState := .txIdle }
  | .reserved _ => none

/-- TX_START (R160). -/
def execTxStart (cls id : Byte) (len : Half) (s : State) : Host.Outcome State Fault Refusal :=
  guardReserved s <| .next { s with tx := txStartStep Config.machine cls id len s.tx }

/-- TX_STEP (R161). -/
def execTxStep (pay : Byte) (s : State) : Host.Outcome State Fault Refusal :=
  guardReserved s <|
    match txStepStep Config.machine pay s.tx with
    | some t => .next { s with tx := t }
    | none => .fault (.reservedTxState s.tx.txState.code)

end Sys2Proof.Machine
end

