-- ==== Sys2Proof/Machine/Dispatch.lean ====
section
/-! DEFINITION. One arm per operation of spec/opcode_table.json: the rule of the operation itself. What a
clock cycle adds around it (spec/43_control.md R143, R144) is in Machine/Cycle.lean. -/

namespace Sys2Proof.Machine

def exec (i : Instr) (s : State) : Host.Outcome State Fault Refusal :=
  match i with
  | .reset => Sys2Proof.Machine.execReset s
  | .arm cls id spot => Sys2Proof.Machine.execArm cls id spot s
  | .rxByte b => Sys2Proof.Machine.execRxByte b s
  | .txStart cls id len => Sys2Proof.Machine.execTxStart cls id len s
  | .txStep pay => Sys2Proof.Machine.execTxStep pay s
  | .idle => Sys2Proof.Machine.execIdle s
  | .readPayload a => Sys2Proof.Machine.execReadPayload a s
  | .readStatus => Sys2Proof.Machine.execReadStatus s

end Sys2Proof.Machine
end

