-- ==== Sys2Proof/Machine/Cycle.lean ====
section
/-! DEFINITION. One clock cycle (spec/43_control.md R143, R144; spec/20_memory.md R44, R50). -/

namespace Sys2Proof.Machine

/-- The operations of a list in order, each seeing what the one before wrote (spec/00_scope.md R6). -/
def runOps : List Instr → State → Host.Outcome State Fault Refusal
  | [], s => .next s
  | i :: is, s => andThen (exec i s) (runOps is)

/-- `Step(s, IN)` (R143) with the host's reads: the reads see the state before the clock edge (R44, R50), then
the pulses are cleared (R144), then the strobed operations run in order. An illegal input is refused and
no step is taken (R75). The pulse clearing belongs to the cycle, not to the operation (log entry 11). -/
def cycle (r : InRecord) (s : State) : Host.Outcome State Fault Refusal :=
  match decodeRecord r with
  | .error e => .refused (.inputRejected e)
  | .ok d => andThen (runOps d.reads s) fun s1 => runOps d.ops (clearPulses s1)

/-- The cycles of a list of input records, in order. -/
def runCycles : List InRecord → State → Host.Outcome State Fault Refusal
  | [], s => .next s
  | r :: rs, s => andThen (cycle r s) (runCycles rs)

/-- The byte on the transmit output in a state: `tx_out_data` while `tx_out_valid` = 1 (R31, R62). -/
def outputByte (s : State) : Option Byte := if s.tx.txOutValid then some s.tx.txOutData else none

/-- The bytes on the transmit output in the cycles after each of the given cycles, in order (R62, R172). -/
def emittedBytes : List InRecord → State → List Byte
  | [], _ => []
  | r :: rs, s =>
    match cycle r s with
    | .next t => (outputByte t).toList ++ emittedBytes rs t
    | .fault _ | .refused _ => []

end Sys2Proof.Machine
end

