-- ==== Sys2Proof/Machine/Step.lean ====
section
/-! DEFINITION. The step: one clock cycle on the next input record (spec/00_scope.md R2; spec/43_control.md
R143). -/

namespace Sys2Proof.Machine

/-- One rising edge of `clk`: the next record is sampled, then the cycle runs. -/
def step (s : State) : Host.Outcome State Fault Refusal := cycle s.nextInput s.consumeInput

/-- `s` with the word `w` of `nbits` bits as the input word of the next cycle, in which the host takes no output. -/
def State.withFetchWord (s : State) (nbits w : Nat) : State :=
  s.withInput { word := BitVec.ofNat _ (w % 2 ^ nbits) }

end Sys2Proof.Machine
end

