-- ==== Sys2Proof/Machine/Report.lean ====
section
/-! DEFINITION. What the block's status reports: the error conditions (spec/60_exceptions.md R181) and the
outcomes the host reads from them (R182). None of them stops or diverts the block (R180). -/

namespace Sys2Proof.Machine

/-- The error conditions X1 to X5 (R181), each as recorded in its register. -/
structure Conditions where
  /-- X1: `validity = NotValid`. -/
  checksumMismatch : Bool
  /-- X2: `overwritten = 1`. -/
  payloadOverflow : Bool
  /-- X3: `match = NotAcknowledged`. -/
  negativeAcknowledge : Bool
  /-- X4: `match = NotValid`. -/
  unrelatedFrame : Bool
  /-- X5: `tx_invalid_arg = 1`. -/
  transmitLengthInvalid : Bool
deriving DecidableEq, Repr

/-- The conditions a state records (R181, R184). -/
def conditions (s : State) : Conditions where
  checksumMismatch := s.rx.validity == .notValid
  payloadOverflow := s.rx.overwritten
  negativeAcknowledge := s.rx.matchReg == .notAcknowledged
  unrelatedFrame := s.rx.matchReg == .notValid
  transmitLengthInvalid := s.tx.txInvalidArg

/-- The outcomes that a status of the block gives (R182); the others are never produced by the block. -/
inductive ReportedOutcome where
  | dataReceivedOrSent | commandNack | crcFail | discard | dataOverwritten | invalidArg
deriving DecidableEq, Repr

/-- Whether the block's status gives an outcome (R182, its table row by row). -/
def reports (s : State) : ReportedOutcome → Bool
  | .dataReceivedOrSent => s.rx.rxDone && s.rx.validity == .valid && s.rx.matchReg == .valid
  | .commandNack => s.rx.rxDone && s.rx.matchReg == .notAcknowledged
  | .crcFail => s.rx.rxDone && s.rx.validity == .notValid
  | .discard => s.rx.rxDone && s.rx.validity == .valid && s.rx.matchReg == .notValid
  | .dataOverwritten => s.rx.rxDone && s.rx.overwritten
  | .invalidArg => s.tx.txInvalidArg

end Sys2Proof.Machine
end

