-- ==== Sys2Proof/Machine/Script.lean ====
section
/-! DEFINITION. The written form of input sequences: one line per cycle (spec/30_encoding.md R78), the
pseudo-operations FEED, SEND, RECV and WAIT (R79), and the loopback wiring (spec/44_tx_framer.md R175). -/

namespace Sys2Proof.Machine

/-- One line (R78): the operations joined by `|`, and `@addr` where the line also reads the buffer. -/
structure Line where
  rst : Bool := false
  arm : Option (Byte × Byte × Half) := none
  rx : Option Byte := none
  txs : Option (Byte × Byte × Half) := none
  txb : Option Byte := none
  readAt : Option RdAddr := none
deriving DecidableEq, Repr

/-- The fields of a line: those it does not name are 0 (R78). -/
def Line.fields (l : Line) : InFields where
  txStep := l.txb.isSome
  txStart := l.txs.isSome
  rxValid := l.rx.isSome
  arm := l.arm.isSome
  rst := l.rst
  armClass := match l.arm with | some (c, _, _) => c | none => 0
  armId := match l.arm with | some (_, i, _) => i | none => 0
  armSpot := match l.arm with | some (_, _, sp) => sp | none => 0
  rxData := l.rx.getD 0
  txClass := match l.txs with | some (c, _, _) => c | none => 0
  txId := match l.txs with | some (_, i, _) => i | none => 0
  txLen := match l.txs with | some (_, _, n) => n | none => 0
  txPay := l.txb.getD 0
  rdAddr := l.readAt.getD 0

/-- The input record a line stands for. -/
def Line.record (l : Line) : InRecord where
  word := packIn l.fields
  takesPayload := l.readAt.isSome

/-- The operations a line writes down, in the order R143 applies them. -/
def Line.ops (l : Line) : List Instr :=
  if l.rst then [.reset]
  else
    let ops :=
      (match l.arm with | some (c, i, sp) => [Instr.arm c i sp] | none => []) ++
      (match l.rx with | some b => [Instr.rxByte b] | none => []) ++
      (match l.txs with | some (c, i, n) => [Instr.txStart c i n] | none => []) ++
      (match l.txb with | some p => [Instr.txStep p] | none => [])
    if ops.isEmpty then [.idle] else ops

/-- `FEED b0 b1 ... bn` (R79). -/
def feed (bs : List Byte) : List Line := bs.map fun b => { rx := some b }

/-- `SEND c, i, p` (R79): the first `TXB` shares its cycle with `TXS`. -/
def send (c i : Byte) (p : List Byte) : List Line :=
  { txs := some (c, i, BitVec.ofNat 16 p.length), txb := some 0 } ::
    (List.replicate 5 { txb := some 0 } ++ p.map (fun b => { txb := some b })
      ++ List.replicate 2 { txb := some 0 })

/-- `RECV c, i, b0 ... bn` (R79). -/
def recv (c i : Byte) (bs : List Byte) : List Line := { arm := some (c, i, 0) } :: feed bs

/-- `WAIT n` (R79). -/
def wait (n : Nat) : List Line := List.replicate n {}

/-- The bytes that a sequence of records presents to the receive framer, in order (R62). -/
def receivedBytes (rs : List InRecord) : List Byte :=
  rs.filterMap fun r => if (unpackIn r.word).rxValid then some (unpackIn r.word).rxData else none

/-- The bytes that the TX_STEP operations of a sequence of records carry, in order (R161, R172). -/
def suppliedBytes (rs : List InRecord) : List Byte :=
  rs.filterMap fun r => if (unpackIn r.word).txStep then some (unpackIn r.word).txPay else none

/-- The lines run with the transmit output wired to the receive input: a byte on the output in a cycle is the
byte received in that cycle, one cycle after the step that emitted it (R175, spec/70_reset_and_hazards.md R211). -/
def loopback : List Line → State → Host.Outcome State Fault Refusal
  | [], s => .next s
  | l :: ls, s => andThen (cycle { l with rx := outputByte s }.record s) (loopback ls)

end Sys2Proof.Machine
end

