-- ==== Sys2Proof/Safety.lean ====
section
/-! DEFINITION. The terms claims are stated in: the legal inputs of a cycle, and the invariant of the reachable
states (spec/10_state.md R14, R15, R18 to R21, R27, R28, R34; spec/41_rx_framer.md R113; spec/30_encoding.md R75). -/

namespace Sys2Proof

/-- The input word is legal (R75): its `rd_addr` lies below `CAP`. -/
abbrev InRecord.Legal (r : InRecord) : Prop := (unpackIn r.word).rdAddr.toNat < Config.machine.cap

/-- The host takes no output in this cycle. -/
abbrev InRecord.Quiet (r : InRecord) : Prop := r.takesPayload = false ∧ r.takesStatus = false

/-- The cycle can neither stop nor RESET: the word is legal, the host takes no byte of the buffer (which could be
one never written, R46), and `rst` is 0. -/
abbrev InRecord.Smooth (r : InRecord) : Prop :=
  r.Legal ∧ r.takesPayload = false ∧ (unpackIn r.word).rst = false

/-- No RESET and no ARM comes: the receive framer is left to its bytes. -/
abbrev InRecord.ReceivesOn (r : InRecord) : Prop := r.Smooth ∧ (unpackIn r.word).arm = false

end Sys2Proof

namespace Sys2Proof.Machine

/-- The record a state would show had its frame not been judged: no verdict, no flag, no received checksum B (R34). -/
abbrev Rx.Unjudged (r : Rx) : Prop :=
  r.validity = .notDefined ∧ r.matchReg = .notDefined ∧ r.overwritten = false ∧ r.ckRxB = 0

/-- The record of a completed frame: the counter stands at `pkt_len + 6` (R113) and the verdicts are those of the
registers they were computed from (R110). -/
abbrev Rx.Judged (c : Config) (r : Rx) : Prop :=
  r.byteCounter.toNat = r.pktLen.toNat + 6 ∧
  r.validity = validityAtCompletion r r.ckRxB ∧
  r.overwritten = overwrittenAtCompletion c r ∧
  r.matchReg = matchAtCompletion c r r.ckRxB

/-- The record is the one ClearFrame leaves (R101). -/
abbrev Rx.Cleared (r : Rx) : Prop := clearFrame r = r

/-- What each value of `rx_state` says of the record. -/
abbrev Rx.RecordFits (c : Config) (r : Rx) : Prop :=
  match r.rxState with
  | .waitSync1 | .waitSync2 => r.Cleared ∨ r.Judged c
  | .waitClass => r.Cleared
  | .waitId => r.Unjudged ∧ r.byteCounter = 1 ∧ r.pktLen = 0 ∧
      (r.ckAccA, r.ckAccB) = compute [r.pktClass]
  | .waitLen1 => r.Unjudged ∧ r.byteCounter = 2 ∧ r.pktLen = 0 ∧
      (r.ckAccA, r.ckAccB) = compute [r.pktClass, r.pktId]
  | .waitLen2 => r.Unjudged ∧ r.byteCounter = 3 ∧ highByte r.pktLen = 0 ∧
      (r.ckAccA, r.ckAccB) = compute [r.pktClass, r.pktId, lowByte r.pktLen]
  | .waitPayload => r.Unjudged ∧ 4 ≤ r.byteCounter.toNat ∧ r.byteCounter.toNat < r.pktLen.toNat + 4
  | .waitChecksumA => r.Unjudged ∧ r.byteCounter.toNat = r.pktLen.toNat + 4
  | .waitChecksumB => r.Unjudged ∧ r.byteCounter.toNat = r.pktLen.toNat + 5
  | .complete => r.Judged c
  | .reserved _ => False

/-- The receive side of a reachable state. -/
abbrev Rx.Inv (c : Config) (r : Rx) : Prop :=
  r.RecordFits c ∧ r.pb.wf c = true ∧ r.validity ≠ .reserved ∧ (r.rxDone = true → r.rxState = .complete)

/-- What each value of `tx_state` says of the transmit registers. -/
abbrev Tx.FrameFits (t : Tx) : Prop :=
  match t.txState with
  | .txIdle => True
  | .txSync1 | .txSync2 | .txClass => t.txCount = 0 ∧ (t.txAccA, t.txAccB) = compute []
  | .txId => t.txCount = 0 ∧ (t.txAccA, t.txAccB) = compute [t.txClass]
  | .txLenL => t.txCount = 0 ∧ (t.txAccA, t.txAccB) = compute [t.txClass, t.txId]
  | .txLenH => t.txCount = 0 ∧ (t.txAccA, t.txAccB) = compute [t.txClass, t.txId, lowByte t.txLen]
  | .txPayload => t.txCount.toNat < t.txLen.toNat
  | .txCkA | .txCkB => t.txCount = t.txLen
  | .reserved _ => False

/-- The transmit side of a reachable state (R27, R28, R32). -/
abbrev Tx.Inv (c : Config) (t : Tx) : Prop :=
  t.FrameFits ∧ t.txLen.toNat ≤ c.cap ∧ t.txCount.toNat ≤ t.txLen.toNat ∧
  (t.txDone = true → t.txState = .txIdle ∧ t.txOutValid = true)

/-- The invariant of the reachable states. -/
abbrev State.Inv (s : State) : Prop := s.rx.Inv Config.machine ∧ s.tx.Inv Config.machine

end Sys2Proof.Machine
end

