-- ==== Sys2Proof/Certificates/Slice0/Obligations.lean ====
section
/-! DEFINITION. The statements about the block, from the numbered rules of spec/. They are about the instance
`Config.machine`, whose parameters R4 names: `Config.machine.cap` is `CAP`
= 276 and `Config.machine.ackClass` is `ACK_CLASS` = 0x05, which R4 marks as not in the source (log entry 5). A
state is `legal` when it holds no reserved code (R75, R200). -/

open Sys2Proof Sys2Proof.Machine

/-! ### Reset and the control operations -/

/-- R201. -/
def Obligations.ResetStateHoldsTheSpecValues : Prop :=
  State.reset.rx.rxState = .waitSync1 ∧ State.reset.tx.txState = .txIdle ∧
  State.reset.rx.reqValid = false ∧ State.reset.rx.validity = .notDefined ∧
  State.reset.rx.matchReg = .notDefined ∧
  State.reset.rx.overwritten = false ∧ State.reset.rx.rxDone = false ∧
  State.reset.tx.txInvalidArg = false ∧ State.reset.tx.txOutValid = false ∧
  State.reset.tx.txDone = false ∧
  (∀ a, State.reset.rx.pb.read? a = none) ∧
  (∀ b, exec (.rxByte b) State.reset = .next
    { State.reset with rx := { State.reset.rx with
        rxState := if b = 0xB5 then .waitSync2 else .waitSync1 } }) ∧
  (∀ b s, s.legal = true → s.rx.rxState = .waitChecksumB → s.rx.reqValid = false →
    ∃ t, exec (.rxByte b) s = .next t ∧ t.rx.rxState = .complete ∧ t.rx.matchReg = .notDefined)

/-- R140: RESET writes every register's reset value, whatever the other fields of its cycle, and alone clears
`req_valid`. That the host side stays is the model's choice (log entry 3, DESIGN CHOICE); words with an `rd_addr` of
`CAP` or more, which the model refuses also under `rst` (log entry 4, DEDUCED), are left out. -/
def Obligations.ResetWritesEveryRegister : Prop :=
  (∀ s, s.legal = true → exec .reset s = .next
    { rx := { rxState := .waitSync1, pktClass := 0x00, pktId := 0x00, pktLen := 0x0000,
              byteCounter := 0, ckAccA := 0x00, ckAccB := 0x00, ckRxA := 0x00, ckRxB := 0x00,
              validity := .notDefined, matchReg := .notDefined, overwritten := false,
              rxDone := false, reqClass := 0x00, reqId := 0x00, reqValid := false,
              startSpot := 0x0000, pb := [] },
      tx := { txState := .txIdle, txClass := 0x00, txId := 0x00, txLen := 0x0000, txCount := 0x0000,
              txAccA := 0x00, txAccB := 0x00, txInvalidArg := false, txOutValid := false,
              txOutData := 0x00, txDone := false },
      host := s.host }) ∧
  (∀ r s, s.legal = true → r.Legal → r.Quiet → (unpackIn r.word).rst = true →
    cycle r s = exec .reset s) ∧
  (∀ i s t, i ≠ .reset → exec i s = .next t → s.rx.reqValid = true → t.rx.reqValid = true)

/-- R141. -/
def Obligations.ArmRestartsTheReceiver : Prop :=
  (∀ cls id spot s, s.legal = true → exec (.arm cls id spot) s = .next
    { s with rx := { s.rx with
        rxState := .waitSync1, pktClass := 0x00, pktId := 0x00, pktLen := 0x0000, byteCounter := 0,
        ckAccA := 0x00, ckAccB := 0x00, ckRxA := 0x00, ckRxB := 0x00,
        validity := .notDefined, matchReg := .notDefined, overwritten := false,
        reqClass := cls, reqId := id, reqValid := true, startSpot := spot } }) ∧
  (∀ cls id spot s, s.legal = true →
    ∃ t, cycle (encode (.arm cls id spot)) s = .next t ∧ t.rx.rxDone = false ∧ t.rx.pb = s.rx.pb) ∧
  (∀ r : Rx, r.pktLen.toNat ≤ r.startSpot.toNat →
    storedCount Config.machine r = 0 ∧ overwrittenAtCompletion Config.machine r = false ∧
    (payloadIndex r < (r.pktLen.toNat : Int) → storeAddr? Config.machine r = none))

/-- R142. -/
def Obligations.IdleOnlyClearsThePulses : Prop :=
  (∀ s, s.legal = true → exec .idle s = .next
    { s with rx := { s.rx with rxDone := false },
             tx := { s.tx with txDone := false, txOutValid := false } }) ∧
  (∀ s, s.legal = true → cycle (encode .idle) s = exec .idle s)

/-- READ_STATUS gives every output of R66 under its code (R67 to R70) and changes no register (R145). -/
def Obligations.ReadStatusGivesEveryOutput : Prop :=
  ∀ s, s.legal = true → ∃ out : Status,
    exec .readStatus s = .next { s with host := { s.host with status := some out } } ∧
    out =
    { rxState := s.rx.rxState.code, pktClass := s.rx.pktClass, pktId := s.rx.pktId,
      pktLen := s.rx.pktLen, byteCounter := s.rx.byteCounter,
      ckAccA := s.rx.ckAccA, ckAccB := s.rx.ckAccB, ckRxA := s.rx.ckRxA, ckRxB := s.rx.ckRxB,
      validity := s.rx.validity.code, matchReg := s.rx.matchReg.code,
      overwritten := BitVec.ofBool s.rx.overwritten, rxDone := BitVec.ofBool s.rx.rxDone,
      reqClass := s.rx.reqClass, reqId := s.rx.reqId, reqValid := BitVec.ofBool s.rx.reqValid,
      startSpot := s.rx.startSpot,
      txState := s.tx.txState.code, txClass := s.tx.txClass, txId := s.tx.txId, txLen := s.tx.txLen,
      txCount := s.tx.txCount, txAccA := s.tx.txAccA, txAccB := s.tx.txAccB,
      txInvalidArg := BitVec.ofBool s.tx.txInvalidArg, txOutValid := BitVec.ofBool s.tx.txOutValid,
      txOutData := s.tx.txOutData, txDone := BitVec.ofBool s.tx.txDone,
      storedCount := BitVec.ofNat 16 (min (s.rx.pktLen.toNat - s.rx.startSpot.toNat) Config.machine.cap),
      inFrame := BitVec.ofBool (decide (2 ≤ s.rx.rxState.code.toNat ∧ s.rx.rxState.code.toNat ≤ 8)),
      txBusy := BitVec.ofBool (decide (s.tx.txState ≠ .txIdle)) }

/-- R33, on unbounded integers; `stored_count` fits its 16-bit output. -/
def Obligations.DerivedOutputsFollowTheirFormulas : Prop :=
  ∀ s : State,
    ((storedCount Config.machine s.rx : Nat) : Int) =
      min (max ((s.rx.pktLen.toNat : Int) - (s.rx.startSpot.toNat : Int)) 0) (Config.machine.cap : Int) ∧
    (statusOutputs s).storedCount.toNat = storedCount Config.machine s.rx ∧
    (inFrame s.rx = true ↔ s.rx.rxState ∈
      [RxState.waitClass, .waitId, .waitLen1, .waitLen2, .waitPayload, .waitChecksumA, .waitChecksumB]) ∧
    (txBusy s.tx = true ↔ s.tx.txState ≠ .txIdle)

/-! ### Reading the buffer -/

/-- READ_PAYLOAD: the byte last written (R44), a fault on a byte never written (R46), refused at `CAP` or above
(R45); nothing but the host's own view changes. -/
def Obligations.ReadPayloadGivesTheStoredByte : Prop :=
  ∀ a s, s.legal = true →
    (∀ v, a.toNat < Config.machine.cap → s.rx.pb.read? a.toNat = some v →
      exec (.readPayload a) s = .next { s with host := { s.host with rdData := some v } }) ∧
    (a.toNat < Config.machine.cap → s.rx.pb.read? a.toNat = none →
      exec (.readPayload a) s = .fault (.unwrittenByte a)) ∧
    (Config.machine.cap ≤ a.toNat →
      exec (.readPayload a) s = .refused (.inputRejected (.rdAddrOutOfRange a)))

/-- R45: an out-of-range `rd_addr` is refused, by the read and by the whole cycle; a capacity leaves such
addresses exactly when it is no power of two. That the refusal takes the whole cycle is log entry 4 (DEDUCED, with
R75), and that it comes before the look at a reserved state is log entry 8 (DESIGN CHOICE, the order). -/
def Obligations.OutOfRangeReadIsRefused : Prop :=
  (∀ r s, Config.machine.cap ≤ (unpackIn r.word).rdAddr.toNat →
    cycle r s = .refused (.inputRejected (.rdAddrOutOfRange (unpackIn r.word).rdAddr))) ∧
  (∀ a s, s.legal = true → Config.machine.cap ≤ a.toNat →
    exec (.readPayload a) s = .refused (.inputRejected (.rdAddrOutOfRange a))) ∧
  (∀ c : Config, c.Legal → ((∃ a, a < 2 ^ c.aw ∧ c.cap ≤ a) ↔ ¬ ∃ k, c.cap = 2 ^ k))

/-- What the host takes in a cycle shows the state before that cycle's clock edge (R44, R50, R211). -/
def Obligations.OutputsShowTheStateBeforeTheEdge : Prop :=
  ∀ r s t, cycle r s = .next t →
    (r.takesStatus = true → t.host.status = some (statusOutputs s)) ∧
    (r.takesPayload = true → t.host.rdData = s.rx.pb.read? (unpackIn r.word).rdAddr.toNat)

/-! ### The checksum engine -/

/-- R90. -/
def Obligations.UpdateAddsIntoBothSums : Prop :=
  (∀ a b x : Byte,
    (update (a, b) x).1.toNat = (a.toNat + x.toNat) % 256 ∧
    (update (a, b) x).2.toNat = (b.toNat + (update (a, b) x).1.toNat) % 256) ∧
  update (0, 0) 0 = (0, 0) ∧ update (0xFF, 0xFF) 0x01 = (0x00, 0xFF) ∧
  update (0x00, 0x00) 0xFF = (0xFF, 0xFF) ∧ update (0x01, 0x01) 0x07 = (0x08, 0x09)

/-- R91: the fold, and its closed form (position k from 0 has weight n - k). -/
def Obligations.ComputeHasTheClosedForm : Prop :=
  (compute [] = (0, 0) ∧ ∀ xs x, compute (xs ++ [x]) = update (compute xs) x) ∧
  (∀ xs : List Byte,
    (compute xs).1.toNat = (xs.map BitVec.toNat).sum % 256 ∧
    (compute xs).2.toNat =
      ((List.range xs.length).map fun k => (xs.length - k) * (xs.getD k 0).toNat).sum % 256) ∧
  compute [0xFF] = (0xFF, 0xFF) ∧ compute [0xFF, 0xFF] = (0xFE, 0xFD) ∧
  compute [0xFF, 0xFF, 0xFF, 0xFF] = (0xFC, 0xF6) ∧ compute [0x01, 0x07, 0x00, 0x00] = (0x08, 0x19)

/-- R96: flipping one bit of one covered byte changes A, so the completing step finds the frame not valid,
whatever checksum B it takes. -/
def Obligations.SingleBitFlipIsDetected : Prop :=
  ∀ (pre post : List Byte) (x : Byte) (j : Fin 8),
    (compute (pre ++ (x ^^^ BitVec.twoPow 8 j) :: post)).1 ≠ (compute (pre ++ x :: post)).1 ∧
    ∀ (s : State) (b : Byte), s.legal = true → s.rx.rxState = .waitChecksumB →
      (s.rx.ckAccA, s.rx.ckAccB) = compute (pre ++ (x ^^^ BitVec.twoPow 8 j) :: post) →
      s.rx.ckRxA = (compute (pre ++ x :: post)).1 →
      ∃ t, exec (.rxByte b) s = .next t ∧ t.rx.validity = .notValid ∧ t.rx.rxState = .complete

/-- R97: swapping two covered bytes leaves A and moves B by distance times difference; some changes go
undetected. -/
def Obligations.SwappedBytesShiftOnlyB : Prop :=
  (∀ (pre mid post : List Byte) (x y : Byte),
    (compute (pre ++ y :: mid ++ x :: post)).1 = (compute (pre ++ x :: mid ++ y :: post)).1 ∧
    (compute (pre ++ y :: mid ++ x :: post)).2 =
      (compute (pre ++ x :: mid ++ y :: post)).2 + BitVec.ofNat 8 (mid.length + 1) * (y - x)) ∧
  compute [0x01, 0x07, 0x04, 0x00, 0x91, 0x22, 0x11, 0x44] =
    compute [0x01, 0x07, 0x04, 0x00, 0x11, 0x22, 0x91, 0x44]

/-! ### The receive framer -/

/-- R102 and R111: `WaitSync1` and `Complete` scan for 0xB5 and keep the record; in a cycle of its own the byte
clears `rx_done`. -/
def Obligations.SyncScanKeepsTheRecord : Prop :=
  ∀ b s, s.legal = true → (s.rx.rxState = .waitSync1 ∨ s.rx.rxState = .complete) →
    exec (.rxByte b) s = .next
      { s with rx := { s.rx with rxState := if b = 0xB5 then .waitSync2 else .waitSync1 } } ∧
    ∃ t, cycle (encode (.rxByte b)) s = .next t ∧
      t.rx = { s.rx with rxDone := false, rxState := if b = 0xB5 then .waitSync2 else .waitSync1 }

/-- R103: 0x62 begins a frame with a cleared record; any other byte, 0xB5 too, is consumed. -/
def Obligations.SecondSyncByteBeginsAFrame : Prop :=
  (∀ s, s.legal = true → s.rx.rxState = .waitSync2 → exec (.rxByte 0x62) s = .next
    { s with rx := { s.rx with
        rxState := .waitClass, pktClass := 0x00, pktId := 0x00, pktLen := 0x0000, byteCounter := 0,
        ckAccA := 0x00, ckAccB := 0x00, ckRxA := 0x00, ckRxB := 0x00,
        validity := .notDefined, matchReg := .notDefined, overwritten := false } }) ∧
  (∀ b s, s.legal = true → s.rx.rxState = .waitSync2 → b ≠ 0x62 →
    exec (.rxByte b) s = .next { s with rx := { s.rx with rxState := .waitSync1 } })

/-- R104 to R107. -/
def Obligations.HeaderBytesAreTakenInOrder : Prop :=
  ∀ b s, s.legal = true →
    let acc := update (s.rx.ckAccA, s.rx.ckAccB) b
    (s.rx.rxState = .waitClass → exec (.rxByte b) s = .next { s with rx := { s.rx with
      pktClass := b, ckAccA := acc.1, ckAccB := acc.2, byteCounter := s.rx.byteCounter + 1,
      rxState := .waitId } }) ∧
    (s.rx.rxState = .waitId → exec (.rxByte b) s = .next { s with rx := { s.rx with
      pktId := b, ckAccA := acc.1, ckAccB := acc.2, byteCounter := s.rx.byteCounter + 1,
      rxState := .waitLen1 } }) ∧
    (s.rx.rxState = .waitLen1 → exec (.rxByte b) s = .next { s with rx := { s.rx with
      pktLen := BitVec.ofNat 16 (s.rx.pktLen.toNat / 256 * 256 + b.toNat),
      ckAccA := acc.1, ckAccB := acc.2, byteCounter := s.rx.byteCounter + 1,
      rxState := .waitLen2 } }) ∧
    (s.rx.rxState = .waitLen2 → exec (.rxByte b) s = .next { s with rx := { s.rx with
      pktLen := BitVec.ofNat 16 (b.toNat * 256 + s.rx.pktLen.toNat % 256),
      ckAccA := acc.1, ckAccB := acc.2, byteCounter := s.rx.byteCounter + 1,
      rxState := if b.toNat * 256 + s.rx.pktLen.toNat % 256 = 0 then .waitChecksumA
        else .waitPayload } })

/-- R108, with the payload index on unbounded integers (R5; log entry 6, DEDUCED, in states with `byte_counter` below
4, which no run reaches): which byte of `PB` is written, and that no other is. -/
def Obligations.PayloadByteIsStoredWithinCapacity : Prop :=
  ∀ b s, s.legal = true → s.rx.rxState = .waitPayload →
    let i : Int := (s.rx.byteCounter.toNat : Int) - 4
    let off : Int := i - (s.rx.startSpot.toNat : Int)
    let acc := update (s.rx.ckAccA, s.rx.ckAccB) b
    ∃ pb', exec (.rxByte b) s = .next { s with rx := { s.rx with
        pb := pb', ckAccA := acc.1, ckAccB := acc.2, byteCounter := s.rx.byteCounter + 1,
        rxState := if i + 1 = (s.rx.pktLen.toNat : Int) then .waitChecksumA else .waitPayload } } ∧
      ((i ≥ (s.rx.startSpot.toNat : Int) ∧ off < (Config.machine.cap : Int)) →
        pb'.read? off.toNat = some b ∧ ∀ a, a ≠ off.toNat → pb'.read? a = s.rx.pb.read? a) ∧
      (¬ (i ≥ (s.rx.startSpot.toNat : Int) ∧ off < (Config.machine.cap : Int)) → pb' = s.rx.pb)

/-- R109. -/
def Obligations.ChecksumAIsHeldForTheLastByte : Prop :=
  ∀ b s, s.legal = true → s.rx.rxState = .waitChecksumA →
    exec (.rxByte b) s = .next { s with rx := { s.rx with
      ckRxA := b, byteCounter := s.rx.byteCounter + 1, rxState := .waitChecksumB } }

/-- R110, with R93, R95 and R131: the completing byte judges the frame. -/
def Obligations.ChecksumBCompletesTheFrame : Prop :=
  ∀ b s, s.legal = true → s.rx.rxState = .waitChecksumB →
    let ok : Prop := s.rx.ckAccA = s.rx.ckRxA ∧ s.rx.ckAccB = b
    ∃ v m, exec (.rxByte b) s = .next { s with rx := { s.rx with
        ckRxB := b, byteCounter := s.rx.byteCounter + 1, validity := v, matchReg := m,
        overwritten := decide (s.rx.pktLen.toNat > s.rx.startSpot.toNat ∧
          s.rx.pktLen.toNat - s.rx.startSpot.toNat > Config.machine.cap),
        rxDone := true, rxState := .complete } } ∧
      (ok → v = .valid) ∧ (¬ ok → v = .notValid ∧ m = .notDefined) ∧
      (s.rx.reqValid = false → m = .notDefined) ∧
      (ok → s.rx.reqValid = true →
        m = classify Config.machine s.rx.pktClass s.rx.pktId s.rx.reqClass s.rx.reqId)

/-- R130, R132: the requested pair first, then the NACK pair, else NotValid. -/
def Obligations.ClassifierTestsTheRequestFirst : Prop :=
  ∀ (c : Config) (cls id rc ri : Byte),
    (cls = rc ∧ id = ri → classify c cls id rc ri = .valid) ∧
    (¬ (cls = rc ∧ id = ri) → cls = c.ackClass ∧ id = c.nackId →
      classify c cls id rc ri = .notAcknowledged) ∧
    (¬ (cls = rc ∧ id = ri) → ¬ (cls = c.ackClass ∧ id = c.nackId) →
      classify c cls id rc ri = .notValid)

/-- R131, on a cycle whose byte completes a frame: the three cases. -/
def Obligations.ClassifierRunsOnlyOnValidFrames : Prop :=
  ∀ b s, s.legal = true → s.rx.rxState = .waitChecksumB →
    ∃ t, cycle (encode (.rxByte b)) s = .next t ∧
      (t.rx.validity = .valid ∨ t.rx.validity = .notValid) ∧
      (t.rx.validity = .notValid → t.rx.matchReg = .notDefined) ∧
      (s.rx.reqValid = false → t.rx.matchReg = .notDefined) ∧
      (t.rx.validity = .valid → s.rx.reqValid = true →
        t.rx.matchReg = classify Config.machine s.rx.pktClass s.rx.pktId s.rx.reqClass s.rx.reqId ∧
        t.rx.matchReg ∈ [Verdict.valid, .notValid, .notAcknowledged])

/-- R135: a byte in the cycle of an ARM is scanned by the re-armed framer and completes nothing. -/
def Obligations.ArmedByteCannotCompleteAFrame : Prop :=
  ∀ r s, s.legal = true → r.Legal → r.Quiet → (unpackIn r.word).rst = false →
    (unpackIn r.word).arm = true →
    ∃ t, cycle r s = .next t ∧ t.rx.rxDone = false ∧ t.rx.matchReg = .notDefined ∧
      t.rx.validity = .notDefined ∧
      t.rx.rxState = (if (unpackIn r.word).rxValid = true ∧ (unpackIn r.word).rxData = 0xB5
        then .waitSync2 else .waitSync1)

/-! ### The transmit framer -/

/-- R160. -/
def Obligations.TxStartChecksTheLength : Prop :=
  ∀ cls id len s, s.legal = true →
    (len.toNat > Config.machine.cap → exec (.txStart cls id len) s = .next
      { s with tx := { s.tx with txInvalidArg := true, txState := .txIdle } }) ∧
    (len.toNat ≤ Config.machine.cap → exec (.txStart cls id len) s = .next
      { s with tx := { s.tx with
          txInvalidArg := false, txClass := cls, txId := id, txLen := len, txCount := 0,
          txAccA := 0x00, txAccB := 0x00, txState := .txSync1 } })

/-- R162 to R164. -/
def Obligations.TxStepEmitsTheSyncBytes : Prop :=
  ∀ p s, s.legal = true →
    (s.tx.txState = .txIdle → exec (.txStep p) s = .next s) ∧
    (s.tx.txState = .txSync1 → exec (.txStep p) s = .next { s with tx := { s.tx with
      txOutValid := true, txOutData := 0xB5, txState := .txSync2 } }) ∧
    (s.tx.txState = .txSync2 → exec (.txStep p) s = .next { s with tx := { s.tx with
      txOutValid := true, txOutData := 0x62, txState := .txClass } })

/-- R165 to R168. -/
def Obligations.TxStepEmitsTheHeader : Prop :=
  ∀ p s, s.legal = true →
    let lo : Byte := BitVec.ofNat 8 (s.tx.txLen.toNat % 256)
    let hi : Byte := BitVec.ofNat 8 (s.tx.txLen.toNat / 256)
    let acc (v : Byte) := update (s.tx.txAccA, s.tx.txAccB) v
    (s.tx.txState = .txClass → exec (.txStep p) s = .next { s with tx := { s.tx with
      txOutValid := true, txOutData := s.tx.txClass,
      txAccA := (acc s.tx.txClass).1, txAccB := (acc s.tx.txClass).2, txState := .txId } }) ∧
    (s.tx.txState = .txId → exec (.txStep p) s = .next { s with tx := { s.tx with
      txOutValid := true, txOutData := s.tx.txId,
      txAccA := (acc s.tx.txId).1, txAccB := (acc s.tx.txId).2, txState := .txLenL } }) ∧
    (s.tx.txState = .txLenL → exec (.txStep p) s = .next { s with tx := { s.tx with
      txOutValid := true, txOutData := lo,
      txAccA := (acc lo).1, txAccB := (acc lo).2, txState := .txLenH } }) ∧
    (s.tx.txState = .txLenH → exec (.txStep p) s = .next { s with tx := { s.tx with
      txOutValid := true, txOutData := hi, txAccA := (acc hi).1, txAccB := (acc hi).2,
      txState := if s.tx.txLen.toNat = 0 then .txCkA else .txPayload } })

/-- R169 to R171, the comparison on unbounded numbers (R5; log entry 6, DEDUCED, where `tx_count` = 65535, which no run
reaches). -/
def Obligations.TxStepEmitsPayloadAndChecksum : Prop :=
  ∀ p s, s.legal = true →
    let acc := update (s.tx.txAccA, s.tx.txAccB) p
    (s.tx.txState = .txPayload → exec (.txStep p) s = .next { s with tx := { s.tx with
      txOutValid := true, txOutData := p, txAccA := acc.1, txAccB := acc.2,
      txCount := s.tx.txCount + 1,
      txState := if s.tx.txCount.toNat + 1 = s.tx.txLen.toNat then .txCkA else .txPayload } }) ∧
    (s.tx.txState = .txCkA → exec (.txStep p) s = .next { s with tx := { s.tx with
      txOutValid := true, txOutData := s.tx.txAccA, txState := .txCkB } }) ∧
    (s.tx.txState = .txCkB → exec (.txStep p) s = .next { s with tx := { s.tx with
      txOutValid := true, txOutData := s.tx.txAccB, txDone := true, txState := .txIdle } })

/-- R174: `tx_pay` is read only by TX_STEP in `TxPayload`. -/
def Obligations.TxPayMattersOnlyInPayload : Prop :=
  (∀ p p' s, s.tx.txState ≠ .txPayload → exec (.txStep p) s = exec (.txStep p') s) ∧
  (∀ (f : InFields) (p p' : Byte) (tp ts : Bool) (s : State), (f.txStep = true → f.rst = false → f.txStart = false → s.tx.txState ≠ .txPayload) →
    cycle { word := packIn { f with txPay := p }, takesPayload := tp, takesStatus := ts } s =
    cycle { word := packIn { f with txPay := p' }, takesPayload := tp, takesStatus := ts } s)

/-! ### Frames: what an operation leaves unchanged -/

/-- RX_BYTE: the transmit side, the request registers, the host side; every byte of `PB` outside the one it
stores; each record register outside the states that write it (R35, R42). -/
def Obligations.RxByteFrame : Prop :=
  ∀ b s t, exec (.rxByte b) s = .next t →
    t.tx = s.tx ∧ t.host = s.host ∧
    t.rx.reqClass = s.rx.reqClass ∧ t.rx.reqId = s.rx.reqId ∧ t.rx.reqValid = s.rx.reqValid ∧
    t.rx.startSpot = s.rx.startSpot ∧
    (s.rx.rxState ≠ .waitPayload → ∀ a, t.rx.pb.read? a = s.rx.pb.read? a) ∧
    (s.rx.rxState = .waitPayload → ∀ a, storeAddr? Config.machine s.rx ≠ some a →
      t.rx.pb.read? a = s.rx.pb.read? a) ∧
    (¬ (s.rx.rxState = .waitSync2 ∧ b = 0x62) →
      (s.rx.rxState ≠ .waitClass → t.rx.pktClass = s.rx.pktClass) ∧
      (s.rx.rxState ≠ .waitId → t.rx.pktId = s.rx.pktId) ∧
      (s.rx.rxState ≠ .waitLen1 → s.rx.rxState ≠ .waitLen2 → t.rx.pktLen = s.rx.pktLen) ∧
      (s.rx.rxState ∉ [RxState.waitClass, .waitId, .waitLen1, .waitLen2, .waitPayload] →
        t.rx.ckAccA = s.rx.ckAccA ∧ t.rx.ckAccB = s.rx.ckAccB) ∧
      (inFrame s.rx = false → t.rx.byteCounter = s.rx.byteCounter) ∧
      (s.rx.rxState ≠ .waitChecksumA → t.rx.ckRxA = s.rx.ckRxA) ∧
      (s.rx.rxState ≠ .waitChecksumB → t.rx.ckRxB = s.rx.ckRxB ∧ t.rx.validity = s.rx.validity ∧
        t.rx.matchReg = s.rx.matchReg ∧ t.rx.overwritten = s.rx.overwritten)) ∧
    (s.rx.rxState ≠ .waitChecksumB → t.rx.rxDone = s.rx.rxDone)

/-- TX_START and TX_STEP: the whole receive side with every byte of `PB`, the host side; each transmit register
outside the states that write it (R35, R175). -/
def Obligations.TxOperationsFrame : Prop :=
  (∀ cls id len s t, exec (.txStart cls id len) s = .next t →
    t.rx = s.rx ∧ t.host = s.host ∧ (∀ a, t.rx.pb.read? a = s.rx.pb.read? a) ∧
    t.tx.txOutValid = s.tx.txOutValid ∧ t.tx.txOutData = s.tx.txOutData ∧ t.tx.txDone = s.tx.txDone ∧
    (len.toNat > Config.machine.cap → t.tx.txClass = s.tx.txClass ∧ t.tx.txId = s.tx.txId ∧
      t.tx.txLen = s.tx.txLen ∧ t.tx.txCount = s.tx.txCount ∧ t.tx.txAccA = s.tx.txAccA ∧
      t.tx.txAccB = s.tx.txAccB)) ∧
  (∀ p s t, exec (.txStep p) s = .next t →
    t.rx = s.rx ∧ t.host = s.host ∧ (∀ a, t.rx.pb.read? a = s.rx.pb.read? a) ∧
    t.tx.txClass = s.tx.txClass ∧ t.tx.txId = s.tx.txId ∧ t.tx.txLen = s.tx.txLen ∧
    t.tx.txInvalidArg = s.tx.txInvalidArg ∧
    (s.tx.txState ≠ .txPayload → t.tx.txCount = s.tx.txCount) ∧
    (s.tx.txState ∉ [TxState.txClass, .txId, .txLenL, .txLenH, .txPayload] →
      t.tx.txAccA = s.tx.txAccA ∧ t.tx.txAccB = s.tx.txAccB) ∧
    (s.tx.txState ≠ .txCkB → t.tx.txDone = s.tx.txDone) ∧
    (s.tx.txState = .txIdle → t = s))

/-- ARM, IDLE, the reads and RESET: what each leaves of the other side, of `PB` and of the host side (R35,
R43, R101). -/
def Obligations.ControlAndReadFrame : Prop :=
  (∀ cls id spot s t, exec (.arm cls id spot) s = .next t →
    t.tx = s.tx ∧ t.host = s.host ∧ t.rx.rxDone = s.rx.rxDone ∧
    ∀ a, t.rx.pb.read? a = s.rx.pb.read? a) ∧
  (∀ s t, exec .idle s = .next t →
    t.host = s.host ∧ t.rx = { s.rx with rxDone := false } ∧
    t.tx = { s.tx with txDone := false, txOutValid := false } ∧
    ∀ a, t.rx.pb.read? a = s.rx.pb.read? a) ∧
  (∀ ad s t, exec (.readPayload ad) s = .next t →
    t.rx = s.rx ∧ t.tx = s.tx ∧ t.host.inputs = s.host.inputs ∧ t.host.cycle = s.host.cycle ∧
    t.host.status = s.host.status ∧ ∀ a, t.rx.pb.read? a = s.rx.pb.read? a) ∧
  (∀ s t, exec .readStatus s = .next t →
    t.rx = s.rx ∧ t.tx = s.tx ∧ t.host.inputs = s.host.inputs ∧ t.host.cycle = s.host.cycle ∧
    t.host.rdData = s.host.rdData ∧ ∀ a, t.rx.pb.read? a = s.rx.pb.read? a) ∧
  (∀ s t, exec .reset s = .next t → t.host = s.host)

/-- R42, over a whole cycle: `PB` is written only by a byte taken in `WaitPayload`, one byte at most, at
`i - start_spot`; no cycle of the transmit side alone writes it. -/
def Obligations.OnlyPayloadBytesWriteTheBuffer : Prop :=
  ∀ r s t, cycle r s = .next t → (unpackIn r.word).rst = false →
    let f := unpackIn r.word
    ((f.rxValid = true ∧ f.arm = false ∧ s.rx.rxState = .waitPayload) →
      let i : Int := (s.rx.byteCounter.toNat : Int) - 4
      let off : Int := i - (s.rx.startSpot.toNat : Int)
      ((i ≥ (s.rx.startSpot.toNat : Int) ∧ off < (Config.machine.cap : Int)) →
        t.rx.pb.read? off.toNat = some f.rxData ∧
        ∀ a, a ≠ off.toNat → t.rx.pb.read? a = s.rx.pb.read? a) ∧
      (¬ (i ≥ (s.rx.startSpot.toNat : Int) ∧ off < (Config.machine.cap : Int)) →
        ∀ a, t.rx.pb.read? a = s.rx.pb.read? a)) ∧
    (¬ (f.rxValid = true ∧ f.arm = false ∧ s.rx.rxState = .waitPayload) →
      ∀ a, t.rx.pb.read? a = s.rx.pb.read? a)

/-! ### Encodings -/

/-- R67 to R70: the codes of the four enumerations. -/
def Obligations.EnumerationCodes : Prop :=
  ([RxState.waitSync1, .waitSync2, .waitClass, .waitId, .waitLen1, .waitLen2, .waitPayload,
    .waitChecksumA, .waitChecksumB, .complete].map RxState.code = [0, 1, 2, 3, 4, 5, 6, 7, 8, 9]) ∧
  ([TxState.txIdle, .txSync1, .txSync2, .txClass, .txId, .txLenL, .txLenH, .txPayload, .txCkA,
    .txCkB].map TxState.code = [0, 1, 2, 3, 4, 5, 6, 7, 8, 9]) ∧
  ([Validity.notDefined, .valid, .notValid, .reserved].map Validity.code = [0, 1, 2, 3]) ∧
  ([Verdict.notDefined, .valid, .notValid, .notAcknowledged].map Verdict.code = [0, 1, 2, 3]) ∧
  (∀ a b : RxState, a.code = b.code → a = b) ∧ (∀ a b : TxState, a.code = b.code → a = b) ∧
  (∀ v : BitVec 4, (∃ a : RxState, a.code = v) ∧ ∃ a : TxState, a.code = v)

/-- Words written out from R64 and R71 (the words of spec/95_test_vectors.md) decode to the operations of their
lines. -/
def Obligations.WrittenOutWordsDecode : Prop :=
  decodeTableWord 94 0x10 = some .reset ∧
  decodeTableWord 94 0xE028 = some (.arm 0x01 0x07 0) ∧
  decodeTableWord 94 0x16A000000004 = some (.rxByte 0xB5) ∧
  decodeTableWord 94 0xE0200000000002 = some (.txStart 0x01 0x07 0) ∧
  decodeTableWord 94 0x1FE0000000000000000001 = some (.txStep 0xFF) ∧
  decodeTableWord 94 0x0 = some .idle ∧
  decodeRecord { word := 0x8080C000000080CB } =
    .ok { reads := [], ops := [.arm 0x06 0x04 0, .txStart 0x06 0x04 4, .txStep 0] } ∧
  decodeRecord { word := 0x226000000000000000000000, takesPayload := true } =
    .ok { reads := [.readPayload 275], ops := [.idle] }

/-- R64: the fields of `IN` and its bits are each other's inverse: no bit is dropped, none is shared. -/
def Obligations.InputWordFieldsRoundTrip : Prop :=
  (∀ f : InFields, unpackIn (packIn f) = f) ∧ (∀ w : InWord, packIn (unpackIn w) = w)

/-- Every well-formed instruction is read back from its own record, and nothing else is performed with it but
the IDLE of a cycle without strobes. -/
def Obligations.DecodeEncodeInstruction : Prop :=
  ∀ i : Instr, i.wf = true → ∃ d, decodeRecord (encode i) = .ok d ∧ d.principal = some i ∧
    (d = { reads := [], ops := [i] } ∨ d = { reads := [i], ops := [.idle] })

/-- R78 with R71 and R143: the word of a line decodes to exactly the line's operations, in order, with every
operand; the read it names is its only read. -/
def Obligations.DecodeEncodeLine : Prop :=
  ∀ l : Line, (∀ a, l.readAt = some a → a.toNat < Config.machine.cap) →
    decodeRecord l.record = .ok
      { reads := match l.readAt with | some a => [.readPayload a] | none => []
        ops := l.ops }

/-! ### The step -/

/-- A step samples the next record and runs the operations it decodes to; for the record of one instruction, it
is `exec` of that instruction with the cycle's pulse clearing around it. -/
def Obligations.StepRunsTheDecodedInstruction : Prop :=
  (∀ (s : State) (r : InRecord) (rs : List InRecord) (d : CycleOps), s.host.inputs = r :: rs →
    decodeRecord r = .ok d →
    step s = andThen (runOps d.reads { s with host := { s.host with inputs := rs, cycle := s.host.cycle + 1 } })
      (fun s1 => runOps d.ops (clearPulses s1))) ∧
  (∀ (s : State) (i : Instr) (rs : List InRecord), s.host.inputs = encode i :: rs → i.wf = true →
    (∀ a, i ≠ .readPayload a) → i ≠ .readStatus →
    step s = exec i (clearPulses { s with host := { s.host with inputs := rs, cycle := s.host.cycle + 1 } })) ∧
  (∀ (s : State) (i : Instr) (rs : List InRecord), s.host.inputs = encode i :: rs → i.wf = true →
    ((∃ a, i = .readPayload a) ∨ i = .readStatus) →
    step s = andThen (exec i { s with host := { s.host with inputs := rs, cycle := s.host.cycle + 1 } })
      (fun s1 => exec .idle (clearPulses s1)))

/-- R143: RESET alone, or pulse clearing and then ARM, RX_BYTE, TX_START, TX_STEP, each on what the one before
left. -/
def Obligations.CycleAppliesStrobesInOrder : Prop :=
  ∀ r s, s.legal = true → r.Legal → r.Quiet →
    let f := unpackIn r.word
    cycle r s =
      if f.rst = true then exec .reset s
      else
        andThen (if f.arm = true then exec (.arm f.armClass f.armId f.armSpot) (clearPulses s)
          else .next (clearPulses s)) fun s1 =>
        andThen (if f.rxValid = true then exec (.rxByte f.rxData) s1 else .next s1) fun s2 =>
        andThen (if f.txStart = true then exec (.txStart f.txClass f.txId f.txLen) s2 else .next s2) fun s3 =>
        if f.txStep = true then exec (.txStep f.txPay) s3 else .next s3

/-- R144, with R21, R31 and R32: after a cycle each pulse is 1 exactly when that cycle set it, and `tx_out_data`
is kept where no byte is emitted. -/
def Obligations.PulsesLastOneCycle : Prop :=
  ∀ r s t, cycle r s = .next t → (unpackIn r.word).rst = false →
    let f := unpackIn r.word
    (t.rx.rxDone = true ↔ f.rxValid = true ∧ f.arm = false ∧ s.rx.rxState = .waitChecksumB) ∧
    (t.tx.txOutValid = true ↔ f.txStep = true ∧
      (if f.txStart = true then f.txLen.toNat ≤ Config.machine.cap else s.tx.txState ≠ .txIdle)) ∧
    (t.tx.txDone = true ↔ f.txStep = true ∧ f.txStart = false ∧ s.tx.txState = .txCkB) ∧
    (t.tx.txOutValid = false → t.tx.txOutData = s.tx.txOutData)

/-- R146: an operand field whose strobe is 0, and every field when `rst` = 1, has no effect; nor has a legal
`rd_addr` where the host takes no byte. -/
def Obligations.UnstrobedFieldsHaveNoEffect : Prop :=
  ∀ (f g : InFields) (tp ts : Bool) (s : State),
    (f.rdAddr = g.rdAddr ∨ (tp = false ∧ f.rdAddr.toNat < Config.machine.cap ∧
      g.rdAddr.toNat < Config.machine.cap)) → f.rst = g.rst →
    (f.rst = false →
      f.arm = g.arm ∧ f.rxValid = g.rxValid ∧ f.txStart = g.txStart ∧ f.txStep = g.txStep ∧
      (f.arm = true → f.armClass = g.armClass ∧ f.armId = g.armId ∧ f.armSpot = g.armSpot) ∧
      (f.rxValid = true → f.rxData = g.rxData) ∧
      (f.txStart = true → f.txClass = g.txClass ∧ f.txId = g.txId ∧ f.txLen = g.txLen) ∧
      (f.txStep = true → f.txPay = g.txPay)) →
    cycle { word := packIn f, takesPayload := tp, takesStatus := ts } s =
      cycle { word := packIn g, takesPayload := tp, takesStatus := ts } s

/-- R75: every input word runs but the one refused; reset holds no reserved code and no rule reaches one; a state
that holds one is a fault of every operation, RESET too (log entry 8, DEDUCED), and every legal cycle. That an
illegal word refuses the whole cycle is log entry 4 (DEDUCED), also in a reserved state log entry 8 (DESIGN CHOICE,
the order). -/
def Obligations.OnlyReservedStatesAndBadAddressesStop : Prop :=
  State.reset.legal = true ∧
  (∀ r s, s.legal = true → r.Legal → r.takesPayload = false → ∃ t, cycle r s = .next t ∧ t.legal = true) ∧
  (∀ r s t, cycle r s = .next t → t.legal = true) ∧
  (∀ r s, ¬ r.Legal → ∃ e, cycle r s = .refused (.inputRejected e)) ∧
  (∀ i s, s.legal = false → ∃ e, exec i s = .fault e ∧
    (e = .reservedRxState s.rx.rxState.code ∨ e = .reservedTxState s.tx.txState.code ∨
      e = .reservedValidity)) ∧
  (∀ r s, s.legal = false → r.Legal → ∃ e, cycle r s = .fault e)

/-- R3: what a cycle makes of the receive side depends on the receive side and its inputs alone, and so for the
transmit side. -/
def Obligations.SidesShareNoState : Prop :=
  ∀ (r r' : InRecord) (s s' t t' : State), cycle r s = .next t → cycle r' s' = .next t' →
    let f := unpackIn r.word
    let g := unpackIn r'.word
    f.rst = g.rst →
    (s.rx = s'.rx → f.arm = g.arm → f.armClass = g.armClass → f.armId = g.armId → f.armSpot = g.armSpot →
      f.rxValid = g.rxValid → f.rxData = g.rxData → t.rx = t'.rx) ∧
    (s.tx = s'.tx → f.txStart = g.txStart → f.txClass = g.txClass → f.txId = g.txId → f.txLen = g.txLen →
      f.txStep = g.txStep → f.txPay = g.txPay → t.tx = t'.tx)

/-! ### Invariants and laws of the receive framer -/

/-- The reset state meets the invariant. -/
def Obligations.ResetMeetsTheInvariant : Prop := State.reset.Inv

/-- Every step keeps the invariant: the record fits `rx_state`, the buffer keeps its canonical form below `CAP`,
the counters stay within their frames, no reserved code appears. -/
def Obligations.StepKeepsTheInvariant : Prop :=
  ∀ s t, s.Inv → step s = .next t → t.Inv

/-- R15: the counter never wraps and counts exactly the bytes taken in a frame. -/
def Obligations.ByteCounterNeverWraps : Prop :=
  ∀ s, s.Inv → s.rx.byteCounter.toNat ≤ 65541 ∧
    (s.rx.rxState = .complete → s.rx.byteCounter.toNat = s.rx.pktLen.toNat + 6) ∧
    (s.rx.rxState = .waitPayload → 4 ≤ s.rx.byteCounter.toNat ∧
      s.rx.byteCounter.toNat - 4 < s.rx.pktLen.toNat) ∧
    ∀ b, ∃ t, exec (.rxByte b) s = .next t ∧
      (inFrame s.rx = true → t.rx.byteCounter.toNat = s.rx.byteCounter.toNat + 1)

/-- R34: a verdict is written once per frame, in its completing cycle, and then kept until the record is
cleared. -/
def Obligations.VerdictIsSetOncePerFrame : Prop :=
  ∀ r s t, s.Inv → cycle r s = .next t →
    (s.rx.validity ≠ .notDefined →
      (t.rx.validity = s.rx.validity ∧ t.rx.matchReg = s.rx.matchReg ∧
        t.rx.overwritten = s.rx.overwritten ∧ t.rx.ckRxB = s.rx.ckRxB ∧ t.rx.rxDone = false) ∨
      t.rx.Cleared) ∧
    (s.rx.validity = .notDefined → t.rx.validity ≠ .notDefined →
      s.rx.rxState = .waitChecksumB ∧ t.rx.rxState = .complete ∧ t.rx.rxDone = true) ∧
    (s.rx.validity = .notDefined → t.rx.validity = .notDefined →
      t.rx.matchReg = .notDefined ∧ t.rx.overwritten = false ∧ t.rx.ckRxB = 0 ∧ t.rx.rxDone = false)

/-- R113, R114: from the acceptance of the second sync byte on, `byte_counter` is the number of bytes received, in
whatever cycles they come, and the framer is inside the frame until it has taken exactly `L + 6` of them, `L` being
the length that the third and fourth give; then it is `Complete`. -/
def Obligations.FrameTakesExactlyItsLength : Prop :=
  ∀ (rs : List InRecord) (s : State), s.Inv → s.rx.rxState = .waitClass →
    (∀ r ∈ rs, r.ReceivesOn) →
    let bs := receivedBytes rs
    let len := (bs.getD 3 0).toNat * 256 + (bs.getD 2 0).toNat
    bs.length < 4 ∨ bs.length ≤ len + 6 →
    ∃ t, runCycles rs s = .next t ∧ t.rx.byteCounter.toNat = bs.length ∧
      (bs.length < 4 ∨ bs.length < len + 6 → inFrame t.rx = true) ∧
      (4 ≤ bs.length → t.rx.pktLen.toNat = len) ∧
      (4 ≤ bs.length → bs.length = len + 6 → t.rx.rxState = .complete ∧
        t.rx.byteCounter.toNat = t.rx.pktLen.toNat + 6)

/-- R112: after any complete frame, received with the starting spot `s`, the buffer holds its payload bytes from
`s` on, up to `stored_count`, and no other byte was written; whatever its checksum bytes are. -/
def Obligations.CompletedFrameStoresItsPayload : Prop :=
  ∀ (cls id a b : Byte) (p : List Byte) (rs : List InRecord) (s : State), s.Inv → p.length ≤ 65535 →
    (s.rx.rxState = .waitSync1 ∨ s.rx.rxState = .complete) → (∀ r ∈ rs, r.ReceivesOn) →
    receivedBytes rs = [0xB5, 0x62] ++ coveredBytes cls id (BitVec.ofNat 16 p.length) p ++ [a, b] →
    ∃ t, runCycles rs s = .next t ∧ t.rx.rxState = .complete ∧
      storedCount Config.machine t.rx =
        min (p.length - s.rx.startSpot.toNat) Config.machine.cap ∧
      (∀ k, k < storedCount Config.machine t.rx →
        t.rx.pb.read? k = p[s.rx.startSpot.toNat + k]?) ∧
      (∀ k, storedCount Config.machine t.rx ≤ k → t.rx.pb.read? k = s.rx.pb.read? k)

/-- R115: a frame that `Frame` builds, its bytes received in whatever cycles, comes back whole and valid. -/
def Obligations.ReceivedFrameRoundTrips : Prop :=
  ∀ (cls id : Byte) (p : List Byte) (rs : List InRecord) (s : State), s.Inv →
    p.length ≤ Config.machine.cap →
    (s.rx.rxState = .waitSync1 ∨ s.rx.rxState = .complete) → s.rx.startSpot = 0 →
    (∀ r ∈ rs, r.ReceivesOn) → receivedBytes rs = frame cls id p →
    ∃ t, runCycles rs s = .next t ∧
      t.rx.rxState = .complete ∧ t.rx.pktClass = cls ∧ t.rx.pktId = id ∧
      t.rx.pktLen.toNat = p.length ∧ (∀ k, k < p.length → t.rx.pb.read? k = p[k]?) ∧
      t.rx.validity = .valid ∧ t.rx.overwritten = false

/-- R116: an oversized frame completes valid, flagged, with its first `CAP` payload bytes stored. -/
def Obligations.OversizedFrameCompletesValid : Prop :=
  ∀ (cls id : Byte) (p : List Byte) (rs : List InRecord) (s : State), s.Inv →
    Config.machine.cap < p.length → p.length ≤ 65535 →
    (s.rx.rxState = .waitSync1 ∨ s.rx.rxState = .complete) → s.rx.startSpot = 0 →
    (∀ r ∈ rs, r.ReceivesOn) → receivedBytes rs = frame cls id p →
    ∃ t, runCycles rs s = .next t ∧
      t.rx.rxState = .complete ∧ t.rx.validity = .valid ∧ t.rx.overwritten = true ∧
      t.rx.byteCounter.toNat = p.length + 6 ∧
      storedCount Config.machine t.rx = Config.machine.cap ∧
      (∀ k, k < Config.machine.cap → t.rx.pb.read? k = p[k]?)

/-- A frame right behind a stray 0xB5 is missed (R205): no byte of it but a later 0xB5 can start a frame. -/
def Obligations.DoubledSyncByteMissesTheFrame : Prop :=
  ∀ (rest : List Byte) (rs : List InRecord) (s : State), s.legal = true →
    (s.rx.rxState = .waitSync1 ∨ s.rx.rxState = .complete) → 0xB5 ∉ rest →
    (∀ r ∈ rs, r.ReceivesOn) → receivedBytes rs = [0xB5, 0xB5, 0x62] ++ rest →
    ∃ t, runCycles rs s = .next t ∧ t.rx = { s.rx with rxState := .waitSync1, rxDone := false }

/-- R114: inside a frame, only ARM and RESET lead back to the sync states; a cycle without a byte leaves the
framer where it is. -/
def Obligations.NoAbortInsideAFrame : Prop :=
  ∀ r s t, cycle r s = .next t → (unpackIn r.word).rst = false → (unpackIn r.word).arm = false →
    (inFrame s.rx = true → inFrame t.rx = true ∨ t.rx.rxState = .complete) ∧
    ((unpackIn r.word).rxValid = false → t.rx = { s.rx with rxDone := false })

/-- R203, with R111: a cycle leaves a completed frame's record and its stored bytes as they are, unless it carries
RESET, ARM or the 0x62 of the next frame's sync pair; from `Complete` the first byte cannot be that one. -/
def Obligations.RecordStaysReadable : Prop :=
  ∀ r s t, cycle r s = .next t → (unpackIn r.word).rst = false → (unpackIn r.word).arm = false →
    inFrame s.rx = false →
    ¬ ((unpackIn r.word).rxValid = true ∧ s.rx.rxState = .waitSync2 ∧ (unpackIn r.word).rxData = 0x62) →
    inFrame t.rx = false ∧ t.rx = { s.rx with rxDone := false, rxState := t.rx.rxState } ∧
    (s.rx.rxState = .complete → (unpackIn r.word).rxValid = true →
      t.rx.rxState = .waitSync1 ∨ t.rx.rxState = .waitSync2)

/-- R22 to R24, R26, R27, R30: over a whole cycle, the request and the starting spot come from ARM alone, the class,
id and length being sent and `tx_invalid_arg` from TX_START alone. -/
def Obligations.ArgumentsComeFromTheirOperation : Prop :=
  ∀ r s t, cycle r s = .next t → (unpackIn r.word).rst = false →
    let f := unpackIn r.word
    (f.arm = true → t.rx.reqClass = f.armClass ∧ t.rx.reqId = f.armId ∧ t.rx.reqValid = true ∧
      t.rx.startSpot = f.armSpot) ∧
    (f.arm = false → t.rx.reqClass = s.rx.reqClass ∧ t.rx.reqId = s.rx.reqId ∧
      t.rx.reqValid = s.rx.reqValid ∧ t.rx.startSpot = s.rx.startSpot) ∧
    (f.txStart = true → (t.tx.txInvalidArg = true ↔ f.txLen.toNat > Config.machine.cap)) ∧
    (f.txStart = true → f.txLen.toNat ≤ Config.machine.cap →
      t.tx.txClass = f.txClass ∧ t.tx.txId = f.txId ∧ t.tx.txLen = f.txLen) ∧
    (f.txStart = false ∨ f.txLen.toNat > Config.machine.cap →
      t.tx.txClass = s.tx.txClass ∧ t.tx.txId = s.tx.txId ∧ t.tx.txLen = s.tx.txLen) ∧
    (f.txStart = false → t.tx.txInvalidArg = s.tx.txInvalidArg)

/-- After a completing cycle with a request armed, the host reads exactly one of the four verdict outcomes of
R182; the conditions X3 and X4 exclude X1 (R181). -/
def Obligations.CompletionReportsOneOutcome : Prop :=
  ∀ s, s.Inv → s.rx.rxDone = true →
    (s.rx.reqValid = true →
      ([ReportedOutcome.dataReceivedOrSent, .commandNack, .crcFail, .discard].filter (reports s)).length = 1) ∧
    (s.rx.reqValid = false → reports s .crcFail = (conditions s).checksumMismatch ∧
      reports s .dataReceivedOrSent = false ∧ reports s .commandNack = false ∧ reports s .discard = false) ∧
    ((conditions s).negativeAcknowledge = true ∨ (conditions s).unrelatedFrame = true →
      (conditions s).checksumMismatch = false) ∧
    (reports s .dataOverwritten = true ↔ s.rx.pktLen.toNat - s.rx.startSpot.toNat > Config.machine.cap)

/-! ### The law of the transmit framer -/

/-- R172: a valid TX_START and `L + 8` TX_STEP operations, in whatever later cycles (the first may share the cycle
of the TX_START), the step that emits payload byte k carrying p[k], emit exactly `Frame(c, i, p)` and end in
`TxIdle`. -/
def Obligations.TransmittedBytesAreTheFrame : Prop :=
  ∀ (cls id : Byte) (p : List Byte) (r : InRecord) (rs : List InRecord) (s : State), s.legal = true →
    p.length ≤ Config.machine.cap → (∀ q ∈ r :: rs, q.Smooth) →
    (unpackIn r.word).txStart = true → (unpackIn r.word).txClass = cls → (unpackIn r.word).txId = id →
    (unpackIn r.word).txLen = BitVec.ofNat 16 p.length →
    (∀ q ∈ rs, (unpackIn q.word).txStart = false) →
    (suppliedBytes (r :: rs)).length = p.length + 8 →
    ((suppliedBytes (r :: rs)).drop 6).take p.length = p →
    ∃ t, runCycles (r :: rs) s = .next t ∧ emittedBytes (r :: rs) s = frame cls id p ∧
      t.tx.txState = .txIdle

/-- R79, R173: from any legal state, a busy one too, SEND runs through and emits exactly `Frame(c, i, p)`, one byte
a cycle. -/
def Obligations.SendEmitsExactlyTheFrame : Prop :=
  ∀ (cls id : Byte) (p : List Byte) (s : State), s.legal = true → p.length ≤ Config.machine.cap →
    ∃ t, runCycles ((send cls id p).map Line.record) s = .next t ∧
      emittedBytes ((send cls id p).map Line.record) s = frame cls id p ∧
      t.tx.txState = .txIdle ∧ t.tx.txDone = true ∧ t.tx.txInvalidArg = false ∧
      t.tx.txCount.toNat = p.length ∧
      (t.tx.txAccA, t.tx.txAccB) = compute (coveredBytes cls id (BitVec.ofNat 16 p.length) p)

/-- R175, with R115: the transmit output wired to the receive input, SEND and one more cycle bring the frame back
whole and valid. -/
def Obligations.LoopbackRoundTrips : Prop :=
  ∀ (cls id : Byte) (p : List Byte) (s : State), s.Inv → p.length ≤ Config.machine.cap →
    (s.rx.rxState = .waitSync1 ∨ s.rx.rxState = .complete) → s.rx.startSpot = 0 →
    s.tx.txOutValid = false →
    ∃ t, loopback (send cls id p ++ wait 1) s = .next t ∧
      t.rx.rxState = .complete ∧ t.rx.rxDone = true ∧ t.rx.pktClass = cls ∧ t.rx.pktId = id ∧
      t.rx.pktLen.toNat = p.length ∧ (∀ k, k < p.length → t.rx.pb.read? k = p[k]?) ∧
      t.rx.validity = .valid ∧ t.rx.overwritten = false ∧ t.tx.txState = .txIdle
end

