-- ==== Sys2Proof/Laws/Config.lean ====
section
/-! SUPPORT. The widths of the instance as numbers, and what follows for the registers of those widths. Later proofs
cite these and leave `Config.machine` folded. -/

namespace Sys2Proof

theorem Config.machine_aw : Config.machine.aw = 9 := by decide
theorem Config.machine_bcw : Config.machine.bcw = 17 := rfl
theorem Config.machine_spw : Config.machine.spw = 16 := rfl
theorem Config.machine_inWidth : Config.machine.inWidth = 94 := by decide

/-- The instance meets every constraint on the parameters. -/
theorem Config.machine_legal : Config.machine.Legal := by refine ⟨?_, ?_, ?_, ?_, ?_⟩ <;> decide

theorem rdAddr_lt (a : RdAddr) : a.toNat < 512 := a.isLt
theorem spot_lt (v : Spot) : v.toNat < 65536 := v.isLt
theorem byteCount_lt (v : ByteCount) : v.toNat < 131072 := v.isLt

/-- The counter counts as a number until it holds its largest value. -/
theorem byteCount_succ_toNat {v : ByteCount} (h : v.toNat < 131071) : (v + 1).toNat = v.toNat + 1 := by
  have h1 : (1 : ByteCount).toNat = 1 := by decide
  have h2 : 2 ^ Config.machine.bcw = 131072 := by decide
  rw [BitVec.toNat_add, h1, h2]
  omega

/-- Bit `k` of `IN`, where only one field is written. -/
theorem getLsbD_atBit {n : Nat} (lo : Nat) (v : BitVec n) (k : Nat) :
    (atBit lo v).getLsbD k = (decide (k < 94) && !decide (k < lo) && v.getLsbD (k - lo)) := by
  simp only [atBit, BitVec.getLsbD_shiftLeft, BitVec.getLsbD_setWidth, Config.machine_inWidth]
  by_cases h1 : k < 94 <;> by_cases h2 : k < lo <;> simp [h1, h2]
  intro; omega

/-- Bit `k` of `IN`, where one field is written with the bits it has in `w`. -/
theorem getLsbD_atBit_field (w : InWord) (lo n k : Nat) :
    (atBit lo (w.extractLsb' lo n)).getLsbD k = (decide (lo ≤ k ∧ k < lo + n ∧ k < 94) && w.getLsbD k) := by
  rw [getLsbD_atBit, BitVec.getLsbD_extractLsb']
  by_cases h : lo ≤ k
  · rw [show lo + (k - lo) = k by omega]
    by_cases h1 : k < 94 <;> by_cases h2 : k < lo + n <;> simp [h, h1, h2, Nat.not_lt.2 h] <;> intros <;> omega
  · simp [h, Nat.lt_of_not_le h]

/-- The same for a field of one bit. -/
theorem getLsbD_atBit_bit (w : InWord) (lo k : Nat) :
    (atBit lo (BitVec.ofBool (w.getLsbD lo))).getLsbD k = (decide (k = lo ∧ k < 94) && w.getLsbD k) := by
  rw [getLsbD_atBit, BitVec.getLsbD_ofBool]
  by_cases h : k = lo
  · subst h; simp
  · by_cases h2 : k < lo <;> simp [h, h2]; intros; omega

end Sys2Proof
end

