-- ==== Sys2Proof/Laws/State.lean ====
section
/-! SUPPORT. One lemma per field per named update of the state, each true by definition, so that no later proof
unfolds a record update. -/

namespace Sys2Proof.Machine

/-! ### ClearFrame -/

@[simp] theorem clearFrame_rxState (r : Rx) : (clearFrame r).rxState = r.rxState := rfl
@[simp] theorem clearFrame_pktClass (r : Rx) : (clearFrame r).pktClass = 0x00 := rfl
@[simp] theorem clearFrame_pktId (r : Rx) : (clearFrame r).pktId = 0x00 := rfl
@[simp] theorem clearFrame_pktLen (r : Rx) : (clearFrame r).pktLen = 0x0000 := rfl
@[simp] theorem clearFrame_byteCounter (r : Rx) : (clearFrame r).byteCounter = 0 := rfl
@[simp] theorem clearFrame_ckAccA (r : Rx) : (clearFrame r).ckAccA = 0x00 := rfl
@[simp] theorem clearFrame_ckAccB (r : Rx) : (clearFrame r).ckAccB = 0x00 := rfl
@[simp] theorem clearFrame_ckRxA (r : Rx) : (clearFrame r).ckRxA = 0x00 := rfl
@[simp] theorem clearFrame_ckRxB (r : Rx) : (clearFrame r).ckRxB = 0x00 := rfl
@[simp] theorem clearFrame_validity (r : Rx) : (clearFrame r).validity = .notDefined := rfl
@[simp] theorem clearFrame_matchReg (r : Rx) : (clearFrame r).matchReg = .notDefined := rfl
@[simp] theorem clearFrame_overwritten (r : Rx) : (clearFrame r).overwritten = false := rfl
@[simp] theorem clearFrame_rxDone (r : Rx) : (clearFrame r).rxDone = r.rxDone := rfl
@[simp] theorem clearFrame_reqClass (r : Rx) : (clearFrame r).reqClass = r.reqClass := rfl
@[simp] theorem clearFrame_reqId (r : Rx) : (clearFrame r).reqId = r.reqId := rfl
@[simp] theorem clearFrame_reqValid (r : Rx) : (clearFrame r).reqValid = r.reqValid := rfl
@[simp] theorem clearFrame_startSpot (r : Rx) : (clearFrame r).startSpot = r.startSpot := rfl
@[simp] theorem clearFrame_pb (r : Rx) : (clearFrame r).pb = r.pb := rfl

/-! ### ARM -/

@[simp] theorem armStep_rxState (cls id : Byte) (spot : Half) (r : Rx) : (armStep cls id spot r).rxState = .waitSync1 := rfl
@[simp] theorem armStep_pktClass (cls id : Byte) (spot : Half) (r : Rx) : (armStep cls id spot r).pktClass = 0x00 := rfl
@[simp] theorem armStep_pktId (cls id : Byte) (spot : Half) (r : Rx) : (armStep cls id spot r).pktId = 0x00 := rfl
@[simp] theorem armStep_pktLen (cls id : Byte) (spot : Half) (r : Rx) : (armStep cls id spot r).pktLen = 0x0000 := rfl
@[simp] theorem armStep_byteCounter (cls id : Byte) (spot : Half) (r : Rx) : (armStep cls id spot r).byteCounter = 0 := rfl
@[simp] theorem armStep_ckAccA (cls id : Byte) (spot : Half) (r : Rx) : (armStep cls id spot r).ckAccA = 0x00 := rfl
@[simp] theorem armStep_ckAccB (cls id : Byte) (spot : Half) (r : Rx) : (armStep cls id spot r).ckAccB = 0x00 := rfl
@[simp] theorem armStep_ckRxA (cls id : Byte) (spot : Half) (r : Rx) : (armStep cls id spot r).ckRxA = 0x00 := rfl
@[simp] theorem armStep_ckRxB (cls id : Byte) (spot : Half) (r : Rx) : (armStep cls id spot r).ckRxB = 0x00 := rfl
@[simp] theorem armStep_validity (cls id : Byte) (spot : Half) (r : Rx) : (armStep cls id spot r).validity = .notDefined := rfl
@[simp] theorem armStep_matchReg (cls id : Byte) (spot : Half) (r : Rx) : (armStep cls id spot r).matchReg = .notDefined := rfl
@[simp] theorem armStep_overwritten (cls id : Byte) (spot : Half) (r : Rx) : (armStep cls id spot r).overwritten = false := rfl
@[simp] theorem armStep_rxDone (cls id : Byte) (spot : Half) (r : Rx) : (armStep cls id spot r).rxDone = r.rxDone := rfl
@[simp] theorem armStep_reqClass (cls id : Byte) (spot : Half) (r : Rx) : (armStep cls id spot r).reqClass = cls := rfl
@[simp] theorem armStep_reqId (cls id : Byte) (spot : Half) (r : Rx) : (armStep cls id spot r).reqId = id := rfl
@[simp] theorem armStep_reqValid (cls id : Byte) (spot : Half) (r : Rx) : (armStep cls id spot r).reqValid = true := rfl
@[simp] theorem armStep_startSpot (cls id : Byte) (spot : Half) (r : Rx) : (armStep cls id spot r).startSpot = spotOf spot := rfl
@[simp] theorem armStep_pb (cls id : Byte) (spot : Half) (r : Rx) : (armStep cls id spot r).pb = r.pb := rfl

/-! ### A covered byte on the receive side -/

@[simp] theorem coverByte_rxState (b : Byte) (r : Rx) : (coverByte b r).rxState = r.rxState := rfl
@[simp] theorem coverByte_pktClass (b : Byte) (r : Rx) : (coverByte b r).pktClass = r.pktClass := rfl
@[simp] theorem coverByte_pktId (b : Byte) (r : Rx) : (coverByte b r).pktId = r.pktId := rfl
@[simp] theorem coverByte_pktLen (b : Byte) (r : Rx) : (coverByte b r).pktLen = r.pktLen := rfl
@[simp] theorem coverByte_byteCounter (b : Byte) (r : Rx) : (coverByte b r).byteCounter = r.byteCounter + 1 := rfl
@[simp] theorem coverByte_ckAccA (b : Byte) (r : Rx) : (coverByte b r).ckAccA = (update (r.ckAccA, r.ckAccB) b).1 := rfl
@[simp] theorem coverByte_ckAccB (b : Byte) (r : Rx) : (coverByte b r).ckAccB = (update (r.ckAccA, r.ckAccB) b).2 := rfl
@[simp] theorem coverByte_ckRxA (b : Byte) (r : Rx) : (coverByte b r).ckRxA = r.ckRxA := rfl
@[simp] theorem coverByte_ckRxB (b : Byte) (r : Rx) : (coverByte b r).ckRxB = r.ckRxB := rfl
@[simp] theorem coverByte_validity (b : Byte) (r : Rx) : (coverByte b r).validity = r.validity := rfl
@[simp] theorem coverByte_matchReg (b : Byte) (r : Rx) : (coverByte b r).matchReg = r.matchReg := rfl
@[simp] theorem coverByte_overwritten (b : Byte) (r : Rx) : (coverByte b r).overwritten = r.overwritten := rfl
@[simp] theorem coverByte_rxDone (b : Byte) (r : Rx) : (coverByte b r).rxDone = r.rxDone := rfl
@[simp] theorem coverByte_reqClass (b : Byte) (r : Rx) : (coverByte b r).reqClass = r.reqClass := rfl
@[simp] theorem coverByte_reqId (b : Byte) (r : Rx) : (coverByte b r).reqId = r.reqId := rfl
@[simp] theorem coverByte_reqValid (b : Byte) (r : Rx) : (coverByte b r).reqValid = r.reqValid := rfl
@[simp] theorem coverByte_startSpot (b : Byte) (r : Rx) : (coverByte b r).startSpot = r.startSpot := rfl
@[simp] theorem coverByte_pb (b : Byte) (r : Rx) : (coverByte b r).pb = r.pb := rfl

/-! ### An emitted byte on the transmit side -/

@[simp] theorem emit_txState (v : Byte) (t : Tx) : (emit v t).txState = t.txState := rfl
@[simp] theorem emit_txClass (v : Byte) (t : Tx) : (emit v t).txClass = t.txClass := rfl
@[simp] theorem emit_txId (v : Byte) (t : Tx) : (emit v t).txId = t.txId := rfl
@[simp] theorem emit_txLen (v : Byte) (t : Tx) : (emit v t).txLen = t.txLen := rfl
@[simp] theorem emit_txCount (v : Byte) (t : Tx) : (emit v t).txCount = t.txCount := rfl
@[simp] theorem emit_txAccA (v : Byte) (t : Tx) : (emit v t).txAccA = t.txAccA := rfl
@[simp] theorem emit_txAccB (v : Byte) (t : Tx) : (emit v t).txAccB = t.txAccB := rfl
@[simp] theorem emit_txInvalidArg (v : Byte) (t : Tx) : (emit v t).txInvalidArg = t.txInvalidArg := rfl
@[simp] theorem emit_txOutValid (v : Byte) (t : Tx) : (emit v t).txOutValid = true := rfl
@[simp] theorem emit_txOutData (v : Byte) (t : Tx) : (emit v t).txOutData = v := rfl
@[simp] theorem emit_txDone (v : Byte) (t : Tx) : (emit v t).txDone = t.txDone := rfl
@[simp] theorem emitCovered_txState (v : Byte) (t : Tx) : (emitCovered v t).txState = t.txState := rfl
@[simp] theorem emitCovered_txClass (v : Byte) (t : Tx) : (emitCovered v t).txClass = t.txClass := rfl
@[simp] theorem emitCovered_txId (v : Byte) (t : Tx) : (emitCovered v t).txId = t.txId := rfl
@[simp] theorem emitCovered_txLen (v : Byte) (t : Tx) : (emitCovered v t).txLen = t.txLen := rfl
@[simp] theorem emitCovered_txCount (v : Byte) (t : Tx) : (emitCovered v t).txCount = t.txCount := rfl
@[simp] theorem emitCovered_txAccA (v : Byte) (t : Tx) : (emitCovered v t).txAccA = (update (t.txAccA, t.txAccB) v).1 := rfl
@[simp] theorem emitCovered_txAccB (v : Byte) (t : Tx) : (emitCovered v t).txAccB = (update (t.txAccA, t.txAccB) v).2 := rfl
@[simp] theorem emitCovered_txInvalidArg (v : Byte) (t : Tx) : (emitCovered v t).txInvalidArg = t.txInvalidArg := rfl
@[simp] theorem emitCovered_txOutValid (v : Byte) (t : Tx) : (emitCovered v t).txOutValid = true := rfl
@[simp] theorem emitCovered_txOutData (v : Byte) (t : Tx) : (emitCovered v t).txOutData = v := rfl
@[simp] theorem emitCovered_txDone (v : Byte) (t : Tx) : (emitCovered v t).txDone = t.txDone := rfl

/-! ### Pulse clearing, and the sampling of the input -/

@[simp] theorem clearPulses_rx (s : State) : (clearPulses s).rx = { s.rx with rxDone := false } := rfl
@[simp] theorem clearPulses_tx (s : State) :
    (clearPulses s).tx = { s.tx with txDone := false, txOutValid := false } := rfl
@[simp] theorem clearPulses_host (s : State) : (clearPulses s).host = s.host := rfl

@[simp] theorem consumeInput_rx (s : State) : s.consumeInput.rx = s.rx := rfl
@[simp] theorem consumeInput_tx (s : State) : s.consumeInput.tx = s.tx := rfl
@[simp] theorem consumeInput_inputs (s : State) : s.consumeInput.host.inputs = s.host.inputs.tail := rfl
@[simp] theorem consumeInput_cycle (s : State) : s.consumeInput.host.cycle = s.host.cycle + 1 := rfl
@[simp] theorem consumeInput_rdData (s : State) : s.consumeInput.host.rdData = s.host.rdData := rfl
@[simp] theorem consumeInput_status (s : State) : s.consumeInput.host.status = s.host.status := rfl

@[simp] theorem withInput_rx (s : State) (r : InRecord) : (s.withInput r).rx = s.rx := rfl
@[simp] theorem withInput_tx (s : State) (r : InRecord) : (s.withInput r).tx = s.tx := rfl
@[simp] theorem withInput_cycle (s : State) (r : InRecord) : (s.withInput r).host.cycle = s.host.cycle := rfl
@[simp] theorem withInput_nextInput (s : State) (r : InRecord) : (s.withInput r).nextInput = r := rfl

/-! ### RESET -/

@[simp] theorem reset_rx : State.reset.rx = Rx.reset := rfl
@[simp] theorem reset_tx : State.reset.tx = Tx.reset := rfl
@[simp] theorem reset_host : State.reset.host = HostSide.reset := rfl

end Sys2Proof.Machine
end

