-- ==== Sys2Proof/Laws/Ops.lean ====
section
/-! SUPPORT. What the shared operations do: the payload buffer, sequencing, the reserved-code check. -/

namespace Sys2Proof.Machine

/-! ### The payload buffer -/

theorem read?_write_same (m : Memory) (a : Nat) (v : Byte) : (m.write a v).read? a = some v := by
  induction m with
  | nil => simp [Memory.write, Memory.read?]
  | cons c m ih =>
    obtain ⟨k, u⟩ := c
    by_cases h1 : a < k
    · simp [Memory.write, Memory.read?, h1]
    · by_cases h2 : a = k
      · simp [Memory.write, Memory.read?, h2]
      · simp [Memory.write, Memory.read?, h1, h2, ih, Ne.symm h2]

theorem read?_write_other (m : Memory) (a b : Nat) (v : Byte) (h : b ≠ a) :
    (m.write a v).read? b = m.read? b := by
  induction m with
  | nil => simp [Memory.write, Memory.read?, h.symm]
  | cons c m ih =>
    obtain ⟨k, u⟩ := c
    by_cases h1 : a < k
    · simp [Memory.write, Memory.read?, h1, h.symm]
    · by_cases h2 : a = k
      · subst h2; simp [Memory.write, Memory.read?, h.symm]
      · simp [Memory.write, Memory.read?, h1, h2, ih]

theorem wfFrom_mono (cap lo lo' : Nat) (m : Memory) (h : lo' ≤ lo) (hw : m.wfFrom cap lo = true) :
    m.wfFrom cap lo' = true := by
  cases m with
  | nil => rfl
  | cons c m =>
    obtain ⟨k, u⟩ := c
    simp only [Memory.wfFrom, Bool.and_eq_true, decide_eq_true_eq] at hw ⊢
    exact ⟨⟨by omega, hw.1.2⟩, hw.2⟩

theorem wfFrom_write (cap lo a : Nat) (v : Byte) (m : Memory) (hlo : lo ≤ a) (ha : a < cap)
    (hw : m.wfFrom cap lo = true) : (m.write a v).wfFrom cap lo = true := by
  induction m generalizing lo with
  | nil => simp [Memory.write, Memory.wfFrom, hlo, ha]
  | cons c m ih =>
    obtain ⟨k, u⟩ := c
    simp [Memory.wfFrom] at hw
    by_cases h1 : a < k
    · simp [Memory.write, h1, Memory.wfFrom, hlo, ha, hw]
    · by_cases h2 : a = k
      · subst h2; simp [Memory.write, Memory.wfFrom, hw]
      · simp [Memory.write, h1, h2, Memory.wfFrom, hw, ih (k + 1) (by omega) hw.2]

/-- Every write below `CAP` keeps the buffer's canonical form. -/
theorem wf_write (c : Config) (a : Nat) (v : Byte) (m : Memory) (ha : a < c.cap)
    (hw : m.wf c = true) : (m.write a v).wf c = true := wfFrom_write _ _ _ _ _ (Nat.zero_le _) ha hw

/-- The reset buffer has the canonical form. -/
theorem wf_reset (c : Config) : State.reset.rx.pb.wf c = true := rfl

/-! ### Sequencing -/

@[simp] theorem andThen_next (s : State) (f : State → Host.Outcome State Fault Refusal) :
    andThen (.next s) f = f s := rfl
@[simp] theorem andThen_fault (e : Fault) (f : State → Host.Outcome State Fault Refusal) :
    andThen (.fault e) f = .fault e := rfl
@[simp] theorem andThen_refused (e : Refusal) (f : State → Host.Outcome State Fault Refusal) :
    andThen (.refused e) f = .refused e := rfl

theorem andThen_eq_next {o : Host.Outcome State Fault Refusal}
    {f : State → Host.Outcome State Fault Refusal} {t : State} (h : andThen o f = .next t) :
    ∃ s, o = .next s ∧ f s = .next t := by
  cases o with
  | next s => exact ⟨s, rfl, h⟩
  | fault e => cases h
  | refused e => cases h

theorem andThen_assoc (o : Host.Outcome State Fault Refusal)
    (f g : State → Host.Outcome State Fault Refusal) :
    andThen (andThen o f) g = andThen o fun s => andThen (f s) g := by cases o <;> rfl

/-! ### Reserved codes -/

theorem legal_iff (s : State) : s.legal = true ↔
    (∀ k, s.rx.rxState ≠ .reserved k) ∧ (∀ k, s.tx.txState ≠ .reserved k) ∧
      s.rx.validity ≠ .reserved := by
  cases h1 : s.rx.rxState <;> cases h2 : s.tx.txState <;> cases h3 : s.rx.validity <;>
    simp [State.legal, State.reservedFault?, h1, h2, h3]

theorem guardReserved_of_legal {s : State} (k : Host.Outcome State Fault Refusal)
    (h : s.legal = true) : guardReserved s k = k := by
  have : s.reservedFault? = none := by simpa [State.legal] using h
  simp [guardReserved, this]

theorem guardReserved_eq_next {s t : State} {k : Host.Outcome State Fault Refusal}
    (h : guardReserved s k = .next t) : s.legal = true ∧ k = .next t := by
  unfold guardReserved at h
  split at h
  · cases h
  · rename_i hn; exact ⟨by simp [State.legal, hn], h⟩

/-- The check reads three registers only. -/
theorem legal_congr {s t : State} (h1 : s.rx.rxState = t.rx.rxState)
    (h2 : s.tx.txState = t.tx.txState) (h3 : s.rx.validity = t.rx.validity) : s.legal = t.legal := by
  simp [State.legal, State.reservedFault?, h1, h2, h3]

@[simp] theorem legal_clearPulses (s : State) : (clearPulses s).legal = s.legal :=
  legal_congr rfl rfl rfl
@[simp] theorem legal_consumeInput (s : State) : s.consumeInput.legal = s.legal :=
  legal_congr rfl rfl rfl
@[simp] theorem clearPulses_clearPulses (s : State) : clearPulses (clearPulses s) = clearPulses s := rfl

end Sys2Proof.Machine
end

