-- ==== Sys2Proof/Laws/Exec.lean ====
section
/-! SUPPORT. What one operation can do: the cases of `exec` answering a next state. -/

namespace Sys2Proof.Machine

/-- RX_BYTE has a rule for every code but the reserved ones. -/
theorem rxByteStep_eq_none {c : Config} {b : Byte} {r : Rx} :
    rxByteStep c b r = none ↔ ∃ k, r.rxState = .reserved k := by
  unfold rxByteStep; cases h : r.rxState <;> simp

/-- TX_STEP has a rule for every code but the reserved ones. -/
theorem txStepStep_eq_none {c : Config} {p : Byte} {t : Tx} :
    txStepStep c p t = none ↔ ∃ k, t.txState = .reserved k := by
  unfold txStepStep; cases h : t.txState <;> simp

theorem execRxByte_of_legal (b : Byte) {s : State} (h : s.legal = true) :
    ∃ r, rxByteStep Config.machine b s.rx = some r ∧ exec (.rxByte b) s = .next { s with rx := r } := by
  cases hr : rxByteStep Config.machine b s.rx with
  | none =>
    obtain ⟨k, hk⟩ := rxByteStep_eq_none.1 hr
    exact absurd hk ((legal_iff s).1 h |>.1 k)
  | some r => exact ⟨r, rfl, by simp [exec, execRxByte, guardReserved_of_legal _ h, hr]⟩

theorem execTxStep_of_legal (p : Byte) {s : State} (h : s.legal = true) :
    ∃ t, txStepStep Config.machine p s.tx = some t ∧ exec (.txStep p) s = .next { s with tx := t } := by
  cases ht : txStepStep Config.machine p s.tx with
  | none =>
    obtain ⟨k, hk⟩ := txStepStep_eq_none.1 ht
    exact absurd hk ((legal_iff s).1 h |>.2.1 k)
  | some t => exact ⟨t, rfl, by simp [exec, execTxStep, guardReserved_of_legal _ h, ht]⟩

/-- Everything an operation that answers a next state can have done. -/
theorem exec_next_cases {i : Instr} {s t : State} (h : exec i s = .next t) :
    s.legal = true ∧
    ((i = .reset ∧ t = { s with rx := Rx.reset, tx := Tx.reset }) ∨
     (∃ cls id spot, i = .arm cls id spot ∧ t = { s with rx := armStep cls id spot s.rx }) ∨
     (∃ b r, i = .rxByte b ∧ rxByteStep Config.machine b s.rx = some r ∧ t = { s with rx := r }) ∨
     (∃ cls id len, i = .txStart cls id len ∧
       t = { s with tx := txStartStep Config.machine cls id len s.tx }) ∨
     (∃ p u, i = .txStep p ∧ txStepStep Config.machine p s.tx = some u ∧ t = { s with tx := u }) ∨
     (i = .idle ∧ t = clearPulses s) ∨
     (∃ a v, i = .readPayload a ∧ a.toNat < Config.machine.cap ∧ s.rx.pb.read? a.toNat = some v ∧
       t = { s with host := { s.host with rdData := some v } }) ∨
     (i = .readStatus ∧ t = { s with host := { s.host with status := some (statusOutputs s) } })) := by
  cases i with
  | reset =>
    obtain ⟨hl, h⟩ := guardReserved_eq_next h
    exact ⟨hl, .inl ⟨rfl, (Host.Outcome.next.inj h).symm⟩⟩
  | arm cls id spot =>
    obtain ⟨hl, h⟩ := guardReserved_eq_next h
    exact ⟨hl, .inr (.inl ⟨cls, id, spot, rfl, (Host.Outcome.next.inj h).symm⟩)⟩
  | rxByte b =>
    obtain ⟨hl, h⟩ := guardReserved_eq_next h
    split at h
    · rename_i r hr
      exact ⟨hl, .inr (.inr (.inl ⟨b, r, rfl, hr, (Host.Outcome.next.inj h).symm⟩))⟩
    · cases h
  | txStart cls id len =>
    obtain ⟨hl, h⟩ := guardReserved_eq_next h
    exact ⟨hl, .inr (.inr (.inr (.inl ⟨cls, id, len, rfl, (Host.Outcome.next.inj h).symm⟩)))⟩
  | txStep p =>
    obtain ⟨hl, h⟩ := guardReserved_eq_next h
    split at h
    · rename_i u hu
      exact ⟨hl, .inr (.inr (.inr (.inr (.inl ⟨p, u, rfl, hu, (Host.Outcome.next.inj h).symm⟩))))⟩
    · cases h
  | idle =>
    obtain ⟨hl, h⟩ := guardReserved_eq_next h
    exact ⟨hl, .inr (.inr (.inr (.inr (.inr (.inl ⟨rfl, (Host.Outcome.next.inj h).symm⟩)))))⟩
  | readPayload a =>
    obtain ⟨hl, h⟩ := guardReserved_eq_next h
    split at h
    · rename_i ha
      split at h
      · rename_i v hv
        rw [rdPort, if_pos ha] at hv
        exact ⟨hl, .inr (.inr (.inr (.inr (.inr (.inr (.inl
          ⟨a, v, rfl, ha, hv, (Host.Outcome.next.inj h).symm⟩))))))⟩
      · cases h
    · cases h
  | readStatus =>
    obtain ⟨hl, h⟩ := guardReserved_eq_next h
    exact ⟨hl, .inr (.inr (.inr (.inr (.inr (.inr (.inr ⟨rfl, (Host.Outcome.next.inj h).symm⟩))))))⟩

/-! ### No rule reaches a reserved code -/

theorem rxByteStep_not_reserved {c : Config} {b : Byte} {r r' : Rx} (h : rxByteStep c b r = some r')
    (hv : r.validity ≠ .reserved) : (∀ k, r'.rxState ≠ .reserved k) ∧ r'.validity ≠ .reserved := by
  unfold rxByteStep at h
  split at h <;> cases h <;>
    simp [rxScanSync1, rxInWaitSync2, rxInWaitClass, rxInWaitId, rxInWaitLen1, rxInWaitLen2,
      rxInWaitPayload, rxInWaitChecksumA, rxInWaitChecksumB, validityAtCompletion, hv] <;>
    split <;> simp_all

theorem txStepStep_not_reserved {c : Config} {p : Byte} {t t' : Tx} (h : txStepStep c p t = some t') :
    ∀ k, t'.txState ≠ .reserved k := by
  unfold txStepStep at h
  split at h <;> cases h <;> simp_all [txInTxPayload] <;> split <;> simp

theorem txStartStep_not_reserved (c : Config) (cls id : Byte) (len : Half) (t : Tx) :
    ∀ k, (txStartStep c cls id len t).txState ≠ .reserved k := by
  unfold txStartStep; split <;> simp

/-- An operation leaves no reserved code behind. -/
theorem exec_keeps_legal {i : Instr} {s t : State} (h : exec i s = .next t) : t.legal = true := by
  obtain ⟨hl, hc⟩ := exec_next_cases h
  obtain ⟨h1, h2, h3⟩ := (legal_iff s).1 hl
  obtain ⟨-, rfl⟩ | ⟨_, _, _, -, rfl⟩ | ⟨b, r, -, hr, rfl⟩ | ⟨_, _, _, -, rfl⟩ | ⟨p, u, -, hu, rfl⟩ |
    ⟨-, rfl⟩ | ⟨_, _, -, -, -, rfl⟩ | ⟨-, rfl⟩ := hc
  · rfl
  · exact (legal_iff _).2 ⟨by simp, h2, by simp⟩
  · obtain ⟨g1, g2⟩ := rxByteStep_not_reserved hr h3
    exact (legal_iff _).2 ⟨g1, h2, g2⟩
  · exact (legal_iff _).2 ⟨h1, txStartStep_not_reserved _ _ _ _ _, h3⟩
  · exact (legal_iff _).2 ⟨h1, txStepStep_not_reserved hu, h3⟩
  · simpa using hl
  · exact (legal_iff _).2 ⟨h1, h2, h3⟩
  · exact (legal_iff _).2 ⟨h1, h2, h3⟩

end Sys2Proof.Machine
end

