-- ==== Sys2Proof/Laws/Cycle.lean ====
section
/-! SUPPORT. What one clock cycle can do: the decoder on a legal word, sequences of operations, the reads. -/

namespace Sys2Proof.Machine

theorem decodeRecord_of_lt {r : InRecord}
    (h : (unpackIn r.word).rdAddr.toNat < Config.machine.cap) :
    decodeRecord r = .ok { reads := readOps r, ops := strobedOps (unpackIn r.word) } := by
  simp [decodeRecord, h]

theorem strobedOps_ne_nil (f : InFields) : strobedOps f ≠ [] := by
  unfold strobedOps
  cases f.rst <;> cases f.arm <;> cases f.rxValid <;> cases f.txStart <;> cases f.txStep <;> simp

@[simp] theorem runOps_nil (s : State) : runOps [] s = .next s := rfl
@[simp] theorem runOps_cons (i : Instr) (is : List Instr) (s : State) :
    runOps (i :: is) s = andThen (exec i s) (runOps is) := rfl

theorem runOps_append (is js : List Instr) (s : State) :
    runOps (is ++ js) s = andThen (runOps is s) (runOps js) := by
  induction is generalizing s with
  | nil => rfl
  | cons i is ih =>
    simp only [List.cons_append, runOps_cons, andThen_assoc]
    cases exec i s <;> simp [ih]

@[simp] theorem runCycles_nil (s : State) : runCycles [] s = .next s := rfl
@[simp] theorem runCycles_cons (r : InRecord) (rs : List InRecord) (s : State) :
    runCycles (r :: rs) s = andThen (cycle r s) (runCycles rs) := rfl

theorem runCycles_append (rs rs' : List InRecord) (s : State) :
    runCycles (rs ++ rs') s = andThen (runCycles rs s) (runCycles rs') := by
  induction rs generalizing s with
  | nil => rfl
  | cons r rs ih =>
    simp only [List.cons_append, runCycles_cons, andThen_assoc]
    cases cycle r s <;> simp [ih]

/-- The reads of a cycle change the host side only. -/
theorem readOps_frame {r : InRecord} {s t : State} (h : runOps (readOps r) s = .next t) :
    t.rx = s.rx ∧ t.tx = s.tx := by
  unfold readOps at h
  rw [runOps_append] at h
  obtain ⟨u, h1, h2⟩ := andThen_eq_next h
  have e1 : u.rx = s.rx ∧ u.tx = s.tx := by
    split at h1
    · simp only [runOps_cons] at h1
      obtain ⟨w, hw, h1⟩ := andThen_eq_next h1
      cases h1
      obtain ⟨-, hc⟩ := exec_next_cases hw
      simp at hc; simp [hc]
    · cases h1; exact ⟨rfl, rfl⟩
  have e2 : t.rx = u.rx ∧ t.tx = u.tx := by
    split at h2
    · simp only [runOps_cons] at h2
      obtain ⟨w, hw, h2⟩ := andThen_eq_next h2
      cases h2
      obtain ⟨-, hc⟩ := exec_next_cases hw
      simp at hc
      obtain ⟨_, _, -, rfl⟩ := hc
      exact ⟨rfl, rfl⟩
    · cases h2; exact ⟨rfl, rfl⟩
  exact ⟨e2.1.trans e1.1, e2.2.trans e1.2⟩

/-- A cycle that answers a next state had a legal word; its reads left both sides alone, and its operations ran
after the pulse clearing. -/
theorem cycle_eq_next {r : InRecord} {s t : State} (h : cycle r s = .next t) :
    (unpackIn r.word).rdAddr.toNat < Config.machine.cap ∧
    ∃ u, runOps (readOps r) s = .next u ∧ u.rx = s.rx ∧ u.tx = s.tx ∧
      runOps (strobedOps (unpackIn r.word)) (clearPulses u) = .next t := by
  unfold cycle at h
  split at h
  · cases h
  · rename_i d hd
    obtain ⟨u, h1, h2⟩ := andThen_eq_next h
    simp only [decodeRecord] at hd
    split at hd
    · rename_i hlt
      cases hd
      exact ⟨hlt, u, h1, (readOps_frame h1).1, (readOps_frame h1).2, h2⟩
    · cases hd

/-- A quiet cycle on a legal word runs its strobed operations after the pulse clearing. -/
theorem cycle_quiet {r : InRecord} {s : State}
    (hl : (unpackIn r.word).rdAddr.toNat < Config.machine.cap)
    (h1 : r.takesPayload = false) (h2 : r.takesStatus = false) :
    cycle r s = runOps (strobedOps (unpackIn r.word)) (clearPulses s) := by
  simp [cycle, decodeRecord_of_lt hl, readOps, h1, h2]

end Sys2Proof.Machine
end

