-- ==== Sys2Proof/Laws/Operands.lean ====
section
/-! SUPPORT. What the computed operands are: the two bytes of a length, and the storage address of a payload byte. -/

namespace Sys2Proof

theorem lowByte_toNat (v : Half) : (lowByte v).toNat = v.toNat % 256 := by simp [lowByte]

theorem highByte_toNat (v : Half) : (highByte v).toNat = v.toNat / 256 := by
  simp only [highByte, BitVec.extractLsb'_toNat, Nat.shiftRight_eq_div_pow]
  have := v.isLt
  omega

theorem halfOf_toNat (hi lo : Byte) : (halfOf hi lo).toNat = hi.toNat * 256 + lo.toNat := by
  have h1 := hi.isLt
  have h2 := lo.isLt
  simp only [halfOf, BitVec.toNat_or, BitVec.toNat_shiftLeft, BitVec.toNat_setWidth]
  rw [Nat.mod_eq_of_lt (a := hi.toNat) (by omega), Nat.mod_eq_of_lt (a := lo.toNat) (by omega),
    Nat.mod_eq_of_lt (by rw [Nat.shiftLeft_eq]; omega), ← Nat.shiftLeft_add_eq_or_of_lt (by omega), Nat.shiftLeft_eq]

end Sys2Proof

namespace Sys2Proof.Machine

theorem lenWithLow_toNat (len : Half) (b : Byte) :
    (lenWithLow len b).toNat = len.toNat / 256 * 256 + b.toNat := by
  rw [lenWithLow, halfOf_toNat, highByte_toNat]

theorem lenWithHigh_toNat (len : Half) (b : Byte) :
    (lenWithHigh len b).toNat = b.toNat * 256 + len.toNat % 256 := by
  rw [lenWithHigh, halfOf_toNat, lowByte_toNat]

theorem lowByte_lenWithLow (len : Half) (b : Byte) : lowByte (lenWithLow len b) = b := by
  apply BitVec.eq_of_toNat_eq
  rw [lowByte_toNat, lenWithLow_toNat]
  have := b.isLt
  omega

theorem highByte_lenWithLow (len : Half) (b : Byte) : highByte (lenWithLow len b) = highByte len := by
  apply BitVec.eq_of_toNat_eq
  rw [highByte_toNat, lenWithLow_toNat, highByte_toNat]
  have := b.isLt
  omega

theorem lowByte_lenWithHigh (len : Half) (b : Byte) : lowByte (lenWithHigh len b) = lowByte len := by
  apply BitVec.eq_of_toNat_eq
  rw [lowByte_toNat, lenWithHigh_toNat, lowByte_toNat]
  omega

theorem highByte_lenWithHigh (len : Half) (b : Byte) : highByte (lenWithHigh len b) = b := by
  apply BitVec.eq_of_toNat_eq
  rw [highByte_toNat, lenWithHigh_toNat]
  omega

/-- `arm_spot` goes into `start_spot` unchanged (R72). -/
theorem spotOf_toNat (spot : Half) : (spotOf spot).toNat = spot.toNat := by
  have := spot.isLt
  rw [spotOf, BitVec.toNat_setWidth, Config.machine_spw]
  omega

/-- In this instance the two have one width. -/
@[simp] theorem spotOf_eq (spot : Half) : spotOf spot = spot := BitVec.setWidth_eq spot

/-- When a payload byte is stored, and where. -/
theorem storeAddr?_eq_some_iff (c : Config) (r : Rx) (a : Nat) :
    storeAddr? c r = some a ↔
      payloadIndex r - (r.startSpot.toNat : Int) = (a : Int) ∧ a < c.cap := by
  simp only [storeAddr?]
  split <;> simp <;> omega

/-- A payload byte that is not stored comes before the starting spot or beyond capacity. -/
theorem storeAddr?_eq_none_iff (c : Config) (r : Rx) :
    storeAddr? c r = none ↔
      payloadIndex r < (r.startSpot.toNat : Int) ∨ (c.cap : Int) ≤ payloadIndex r - (r.startSpot.toNat : Int) := by
  simp only [storeAddr?]
  split <;> simp <;> omega

/-- Storing a payload byte keeps the canonical form of the buffer. -/
theorem wf_store (c : Config) (r : Rx) (b : Byte) (h : r.pb.wf c = true) :
    (match storeAddr? c r with | some a => r.pb.write a b | none => r.pb).wf c = true := by
  split
  · rename_i a ha
    exact wf_write _ _ _ _ ((storeAddr?_eq_some_iff c r a).mp ha).2 h
  · exact h

/-- The record ClearFrame leaves, register by register. -/
theorem clearFrame_eq_self_iff (r : Rx) : clearFrame r = r ↔
    r.pktClass = 0 ∧ r.pktId = 0 ∧ r.pktLen = 0 ∧ r.byteCounter = 0 ∧ r.ckAccA = 0 ∧ r.ckAccB = 0 ∧
      r.ckRxA = 0 ∧ r.ckRxB = 0 ∧ r.validity = .notDefined ∧ r.matchReg = .notDefined ∧
      r.overwritten = false := by
  cases r
  simp only [clearFrame, Rx.mk.injEq, true_and, and_true]
  constructor <;> rintro ⟨h1, h2, h3, h4, h5, h6, h7, h8, h9, h10, h11⟩ <;>
    exact ⟨h1.symm, h2.symm, h3.symm, h4.symm, h5.symm, h6.symm, h7.symm, h8.symm, h9.symm, h10.symm, h11.symm⟩

end Sys2Proof.Machine
end

