-- ==== Sys2Proof/Laws/PerInstr.lean ====
section
/-! SUPPORT. One lemma per constructor of `Instr`: the fields an instruction is encoded in select that instruction
and no other, and carry a legal read address. -/

namespace Sys2Proof.Laws.Fields

/-- The operations of the cycle that performs one instruction alone: a read strobes nothing. -/
def soloOps : Instr → List Instr
  | .readPayload _ | .readStatus => [.idle]
  | .reset => [.reset]
  | .arm cls id spot => [.arm cls id spot]
  | .rxByte b => [.rxByte b]
  | .txStart cls id len => [.txStart cls id len]
  | .txStep pay => [.txStep pay]
  | .idle => [.idle]

/-- The fields of a well-formed instruction have a legal `rd_addr` and strobe it alone. -/
def Statement (i : Instr) : Prop :=
  i.wf = true → i.fields.rdAddr.toNat < Config.machine.cap ∧ strobedOps i.fields = soloOps i

/-- Fields not named are 0, and address 0 is legal. -/
theorem zero_addr_legal : (0 : RdAddr).toNat < Config.machine.cap := by decide

theorem reset : Statement .reset := fun _ => ⟨zero_addr_legal, rfl⟩
theorem arm (cls id : Byte) (spot : Half) : Statement (.arm cls id spot) := fun _ => ⟨zero_addr_legal, rfl⟩
theorem rxByte (b : Byte) : Statement (.rxByte b) := fun _ => ⟨zero_addr_legal, rfl⟩
theorem txStart (cls id : Byte) (len : Half) : Statement (.txStart cls id len) := fun _ => ⟨zero_addr_legal, rfl⟩
theorem txStep (pay : Byte) : Statement (.txStep pay) := fun _ => ⟨zero_addr_legal, rfl⟩
theorem idle : Statement .idle := fun _ => ⟨zero_addr_legal, rfl⟩
theorem readPayload (a : RdAddr) : Statement (.readPayload a) := fun h =>
  ⟨by by_contra hn; simp [Instr.wf, Instr.wfError?, Instr.fields] at h hn; omega, rfl⟩
theorem readStatus : Statement .readStatus := fun _ => ⟨zero_addr_legal, rfl⟩

end Sys2Proof.Laws.Fields
end

