-- ==== Sys2Proof/Laws/Sides.lean ====
section
/-! SUPPORT. One cycle without RESET, seen from each side: the receive side is a function of the receive side and
its own fields, the transmit side of the transmit side and its own (spec/00_scope.md R3; spec/43_control.md R143).
These two inversion lemmas say once everything a cycle can do; later proofs cite them. -/

namespace Sys2Proof.Machine

/-- The receive side across a cycle: pulse clearing, ARM, RX_BYTE. -/
def rxCycle (f : InFields) (r : Rx) : Option Rx :=
  let r0 := { r with rxDone := false }
  let r1 := if f.arm then armStep f.armClass f.armId f.armSpot r0 else r0
  if f.rxValid then rxByteStep Config.machine f.rxData r1 else some r1

/-- The transmit side across a cycle: pulse clearing, TX_START, TX_STEP. -/
def txCycle (f : InFields) (t : Tx) : Option Tx :=
  let t0 := { t with txDone := false, txOutValid := false }
  let t1 := if f.txStart then txStartStep Config.machine f.txClass f.txId f.txLen t0 else t0
  if f.txStep then txStepStep Config.machine f.txPay t1 else some t1

theorem runOps_nil_eq : runOps [] = .next := rfl
theorem runOps_cons_eq (i : Instr) (is : List Instr) :
    runOps (i :: is) = fun s => andThen (exec i s) (runOps is) := rfl
theorem andThen_next_eq (o : Host.Outcome State Fault Refusal) : andThen o .next = o := by
  cases o <;> rfl

/-- An operation, where its strobe is set. -/
def execIf (b : Bool) (i : Instr) (s : State) : Host.Outcome State Fault Refusal :=
  if b then exec i s else .next s

/-- The strobed operations of a cycle without RESET that strobes something, each on what the one before left. -/
theorem runOps_strobed {f : InFields} (hr : f.rst = false) (s : State) :
    runOps (strobedOps f) s =
      if f.arm || f.rxValid || f.txStart || f.txStep then
        andThen (execIf f.arm (.arm f.armClass f.armId f.armSpot) s) fun s1 =>
        andThen (execIf f.rxValid (.rxByte f.rxData) s1) fun s2 =>
        andThen (execIf f.txStart (.txStart f.txClass f.txId f.txLen) s2)
          fun s3 => execIf f.txStep (.txStep f.txPay) s3
      else exec .idle s := by
  unfold strobedOps
  rw [hr]
  cases f.arm <;> cases f.rxValid <;> cases f.txStart <;> cases f.txStep <;>
    simp [execIf, runOps_nil_eq, runOps_cons_eq, andThen_next_eq, -runOps_cons, -runOps_nil]

theorem execIf_arm_next {b : Bool} {cls id : Byte} {spot : Half} {s t : State}
    (h : execIf b (.arm cls id spot) s = .next t) :
    t = { s with rx := if b then armStep cls id spot s.rx else s.rx } := by
  cases b
  · cases h; rfl
  · obtain ⟨-, hc⟩ := exec_next_cases (i := .arm cls id spot) h; simpa using hc

theorem execIf_rxByte_next {b : Bool} {v : Byte} {s t : State}
    (h : execIf b (.rxByte v) s = .next t) :
    (if b then rxByteStep Config.machine v s.rx else some s.rx) = some t.rx ∧ t.tx = s.tx ∧
      t.host = s.host := by
  cases b
  · cases h; exact ⟨rfl, rfl, rfl⟩
  · obtain ⟨-, hc⟩ := exec_next_cases (i := .rxByte v) h
    simp at hc; obtain ⟨r, hr, rfl⟩ := hc; exact ⟨hr, rfl, rfl⟩

theorem execIf_txStart_next {b : Bool} {cls id : Byte} {len : Half} {s t : State}
    (h : execIf b (.txStart cls id len) s = .next t) :
    t = { s with tx := if b then txStartStep Config.machine cls id len s.tx else s.tx } := by
  cases b
  · cases h; rfl
  · obtain ⟨-, hc⟩ := exec_next_cases (i := .txStart cls id len) h; simpa using hc

theorem execIf_txStep_next {b : Bool} {p : Byte} {s t : State}
    (h : execIf b (.txStep p) s = .next t) :
    (if b then txStepStep Config.machine p s.tx else some s.tx) = some t.tx ∧ t.rx = s.rx ∧
      t.host = s.host := by
  cases b
  · cases h; exact ⟨rfl, rfl, rfl⟩
  · obtain ⟨-, hc⟩ := exec_next_cases (i := .txStep p) h
    simp at hc; obtain ⟨u, hu, rfl⟩ := hc; exact ⟨hu, rfl, rfl⟩

/-- A list of operations that answers a next state began in a state without reserved codes. -/
theorem legal_of_runOps_next {is : List Instr} {s t : State} (hne : is ≠ [])
    (h : runOps is s = .next t) : s.legal = true := by
  cases is with
  | nil => exact absurd rfl hne
  | cons i is => obtain ⟨u, hu, -⟩ := andThen_eq_next h; exact (exec_next_cases hu).1

/-- Everything a cycle that answers a next state can have done to the two sides. -/
theorem cycle_next_sides {r : InRecord} {s t : State} (h : cycle r s = .next t) :
    s.legal = true ∧
    ((unpackIn r.word).rst = true → t.rx = Rx.reset ∧ t.tx = Tx.reset) ∧
    ((unpackIn r.word).rst = false → rxCycle (unpackIn r.word) s.rx = some t.rx ∧
      txCycle (unpackIn r.word) s.tx = some t.tx) := by
  obtain ⟨-, u, -, hrx, htx, h⟩ := cycle_eq_next h
  have hl : s.legal = true := by
    have hu : (clearPulses u).legal = true := legal_of_runOps_next (strobedOps_ne_nil _) h
    rw [← hu]
    exact legal_congr (by simp [hrx]) (by simp [htx]) (by simp [hrx])
  refine ⟨hl, fun hr => ?_, fun hr => ?_⟩
  · rw [strobedOps, if_pos hr] at h
    obtain ⟨w, hw, h⟩ := andThen_eq_next h
    cases h
    obtain ⟨-, hc⟩ := exec_next_cases hw
    simp at hc; subst hc; exact ⟨rfl, rfl⟩
  · rw [runOps_strobed hr] at h
    split at h
    · obtain ⟨s1, h1, h⟩ := andThen_eq_next h
      obtain ⟨s2, h2, h⟩ := andThen_eq_next h
      obtain ⟨s3, h3, h4⟩ := andThen_eq_next h
      have e1 := execIf_arm_next h1
      obtain ⟨e2, e2t, -⟩ := execIf_rxByte_next h2
      have e3 := execIf_txStart_next h3
      obtain ⟨e4, e4r, -⟩ := execIf_txStep_next h4
      subst e1
      subst e3
      simp only [clearPulses_rx, clearPulses_tx, hrx, htx] at e2 e2t e4 e4r
      refine ⟨?_, ?_⟩
      · rw [e4r]; exact e2
      · rw [e2t] at e4; exact e4
    · rename_i hn
      simp only [Bool.or_eq_true, not_or, Bool.not_eq_true] at hn
      obtain ⟨-, hc⟩ := exec_next_cases h
      simp at hc
      subst hc
      simp [rxCycle, txCycle, hn, hrx, htx]

/-- A quiet legal cycle without RESET on a state without reserved codes answers a next state, which the two sides
determine. -/
theorem cycle_of_legal {r : InRecord} {s : State} (hs : s.legal = true)
    (hl : (unpackIn r.word).rdAddr.toNat < Config.machine.cap) (h1 : r.takesPayload = false)
    (h2 : r.takesStatus = false) (hr : (unpackIn r.word).rst = false) :
    ∃ rx tx, rxCycle (unpackIn r.word) s.rx = some rx ∧ txCycle (unpackIn r.word) s.tx = some tx ∧
      cycle r s = .next { s with rx := rx, tx := tx } := by
  have hc := cycle_quiet (s := s) hl h1 h2
  have run : ∀ (b : Bool) (i : Instr) (u : State), u.legal = true →
      (∀ a, i ≠ .readPayload a) → ∃ t, execIf b i u = .next t ∧ t.legal = true := by
    intro b i u hu hi
    cases b
    · exact ⟨u, rfl, hu⟩
    · have : ∃ t, exec i u = .next t := by
        cases i with
        | readPayload a => exact absurd rfl (hi a)
        | rxByte b => obtain ⟨_, -, h⟩ := execRxByte_of_legal b hu; exact ⟨_, h⟩
        | txStep p => obtain ⟨_, -, h⟩ := execTxStep_of_legal p hu; exact ⟨_, h⟩
        | reset | arm | txStart | idle | readStatus => exact ⟨_, guardReserved_of_legal _ hu⟩
      obtain ⟨t, ht⟩ := this
      exact ⟨t, ht, exec_keeps_legal ht⟩
  have hcp : (clearPulses s).legal = true := by simpa using hs
  have : ∃ t, runOps (strobedOps (unpackIn r.word)) (clearPulses s) = .next t ∧ t.host = s.host := by
    rw [runOps_strobed hr]
    split
    · obtain ⟨s1, e1, l1⟩ := run (unpackIn r.word).arm (.arm (unpackIn r.word).armClass
        (unpackIn r.word).armId (unpackIn r.word).armSpot) _ hcp (by simp)
      obtain ⟨s2, e2, l2⟩ := run (unpackIn r.word).rxValid (.rxByte (unpackIn r.word).rxData) s1 l1 (by simp)
      obtain ⟨s3, e3, l3⟩ := run (unpackIn r.word).txStart (.txStart (unpackIn r.word).txClass
        (unpackIn r.word).txId (unpackIn r.word).txLen) s2 l2 (by simp)
      obtain ⟨s4, e4, -⟩ := run (unpackIn r.word).txStep (.txStep (unpackIn r.word).txPay) s3 l3 (by simp)
      refine ⟨s4, by simp [e1, e2, e3, e4], ?_⟩
      rw [(execIf_txStep_next e4).2.2, execIf_txStart_next e3, (execIf_rxByte_next e2).2.2,
        execIf_arm_next e1]
      rfl
    · exact ⟨_, guardReserved_of_legal _ hcp, rfl⟩
  obtain ⟨t, ht, hh⟩ := this
  rw [← hc] at ht
  obtain ⟨-, -, hsd⟩ := cycle_next_sides ht
  obtain ⟨g1, g2⟩ := hsd hr
  exact ⟨t.rx, t.tx, g1, g2, by rw [ht, ← hh]⟩

end Sys2Proof.Machine
end

