-- ==== Sys2Proof/Laws/Runs.lean ====
section
/-! SUPPORT. Runs of several cycles without RESET: each answers a next state, and what the receive side makes of one
in which no ARM comes is a fold over the bytes received. -/

namespace Sys2Proof.Machine

/-- After the operations of a cycle the state holds no reserved code. -/
theorem legal_after_runOps {is : List Instr} {s t : State} (hs : s.legal = true)
    (h : runOps is s = .next t) : t.legal = true := by
  induction is generalizing s with
  | nil => cases h; exact hs
  | cons i is ih =>
    obtain ⟨u, hu, h⟩ := andThen_eq_next h
    exact ih (exec_keeps_legal hu) h

/-- A smooth record answers a next state from every legal one, which the two sides determine. -/
theorem cycle_of_smooth {r : InRecord} {s : State} (hs : s.legal = true) (hr : r.Smooth) :
    ∃ t, cycle r s = .next t ∧ t.legal = true ∧
      rxCycle (unpackIn r.word) s.rx = some t.rx ∧ txCycle (unpackIn r.word) s.tx = some t.tx := by
  obtain ⟨hl, hp, h0⟩ := hr
  have quiet : ∀ u : State, u.legal = true → ∃ t, runOps (strobedOps (unpackIn r.word)) (clearPulses u) = .next t := by
    intro u hu
    obtain ⟨rx, tx, -, -, h⟩ := cycle_of_legal (r := { r with takesStatus := false }) hu hl hp rfl h0
    rw [cycle_quiet (r := { r with takesStatus := false }) hl hp rfl] at h
    exact ⟨_, h⟩
  have run : ∃ t, cycle r s = .next t := by
    unfold cycle
    rw [decodeRecord_of_lt hl]
    cases hts : r.takesStatus
    · obtain ⟨t, ht⟩ := quiet s hs
      exact ⟨t, by simpa [readOps, hp, hts] using ht⟩
    · have he : exec .readStatus s =
          .next { s with host := { s.host with status := some (statusOutputs s) } } := guardReserved_of_legal _ hs
      obtain ⟨t, ht⟩ := quiet { s with host := { s.host with status := some (statusOutputs s) } } hs
      exact ⟨t, by simpa [readOps, hp, hts, he] using ht⟩
  obtain ⟨t, ht⟩ := run
  obtain ⟨-, -, hsides⟩ := cycle_next_sides ht
  obtain ⟨-, u, -, -, -, hops⟩ := cycle_eq_next ht
  exact ⟨t, ht, legal_after_runOps (legal_of_runOps_next (strobedOps_ne_nil _) hops) hops, (hsides h0).1, (hsides h0).2⟩

/-- The receive side across a sequence of received bytes, the completion pulse cleared after each. -/
def rxBytes : List Byte → Rx → Option Rx
  | [], r => some r
  | b :: bs, r => (rxByteStep Config.machine b r).bind fun r' => rxBytes bs { r' with rxDone := false }

@[simp] theorem rxBytes_nil (r : Rx) : rxBytes [] r = some r := rfl
@[simp] theorem rxBytes_cons (b : Byte) (bs : List Byte) (r : Rx) :
    rxBytes (b :: bs) r = (rxByteStep Config.machine b r).bind fun r' => rxBytes bs { r' with rxDone := false } := rfl

theorem rxBytes_append (bs cs : List Byte) (r : Rx) :
    rxBytes (bs ++ cs) r = (rxBytes bs r).bind (rxBytes cs) := by
  induction bs generalizing r with
  | nil => rfl
  | cons b bs ih => simp only [List.cons_append, rxBytes_cons]; cases rxByteStep Config.machine b r <;> simp [ih]

/-- A run in which no RESET and no ARM comes answers a next state, and, but for the completion pulse, its receive
side is the fold over the bytes received. -/
theorem runCycles_receives (rs : List InRecord) (s : State) (hs : s.legal = true)
    (h : ∀ r ∈ rs, r.ReceivesOn) :
    ∃ t, runCycles rs s = .next t ∧ t.legal = true ∧
      rxBytes (receivedBytes rs) { s.rx with rxDone := false } = some { t.rx with rxDone := false } := by
  induction rs generalizing s with
  | nil => exact ⟨s, rfl, hs, rfl⟩
  | cons r rs ih =>
    obtain ⟨hr, ha⟩ := h r (by simp)
    obtain ⟨u, hu, hul, hrx, -⟩ := cycle_of_smooth hs hr
    obtain ⟨t, ht, htl, hb⟩ := ih u hul fun q hq => h q (by simp [hq])
    refine ⟨t, by simp [hu, ht], htl, ?_⟩
    rw [← hb]
    simp only [rxCycle, ha] at hrx
    cases hv : (unpackIn r.word).rxValid <;> simp [hv] at hrx
    · simp [receivedBytes, hv, ← hrx]
    · simp [receivedBytes, hv, hrx]

/-- A run without RESET answers a next state. -/
theorem runCycles_of_smooth (rs : List InRecord) (s : State) (hs : s.legal = true) (h : ∀ r ∈ rs, r.Smooth) :
    ∃ t, runCycles rs s = .next t ∧ t.legal = true := by
  induction rs generalizing s with
  | nil => exact ⟨s, rfl, hs⟩
  | cons r rs ih =>
    obtain ⟨u, hu, hul, -, -⟩ := cycle_of_smooth hs (h r (by simp))
    obtain ⟨t, ht, htl⟩ := ih u hul fun q hq => h q (by simp [hq])
    exact ⟨t, by simp [hu, ht], htl⟩

end Sys2Proof.Machine
end

