-- ==== Sys2Proof/Tests/Slice0.lean ====
section
/-! SUPPORT. The model's own tests: each expected value is one of spec/95_test_vectors.md (its id stands in the
docstring) or a sentence of a rule. After them, the witnesses: states and operands that meet the hypotheses of
each statement of Certificates/Slice0/Obligations.lean. -/

namespace Sys2Proof.Tests

open Sys2Proof.Machine

/-! ### Helpers -/

/-- The next state of an outcome, if it has one. -/
def next? : Host.Outcome State Fault Refusal → Option State
  | .next s => some s
  | .fault _ | .refused _ => none

/-- The reset state with another `rx_state`. -/
def rxAt (r : RxState) : State := { State.reset with rx := { Rx.reset with rxState := r } }

/-- The reset state with another `tx_state`. -/
def txAt (t : TxState) : State := { State.reset with tx := { Tx.reset with txState := t } }

/-- V-R19: the state after `ARM 0x01, 0x07` and the frame V-F1, in the cycle after its last byte. -/
def afterVF1 : State :=
  { State.reset with
    rx := { Rx.reset with
      rxState := .complete, pktClass := 0x01, pktId := 0x07, byteCounter := 6
      ckAccA := 0x08, ckAccB := 0x19, ckRxA := 0x08, ckRxB := 0x19
      validity := .valid, matchReg := .valid, rxDone := true
      reqClass := 0x01, reqId := 0x07, reqValid := true } }

/-- V-F1 up to its last byte, after `ARM 0x01, 0x07`. -/
def beforeLastOfVF1 : State :=
  { State.reset with
    rx := { Rx.reset with
      rxState := .waitChecksumB, pktClass := 0x01, pktId := 0x07, byteCounter := 5
      ckAccA := 0x08, ckAccB := 0x19, ckRxA := 0x08
      reqClass := 0x01, reqId := 0x07, reqValid := true } }

/-- A frame (0x01, 0x07) of the given length in `WaitPayload`, with the given starting spot and counter. -/
def inPayload (len spot : Half) (counter : ByteCount) : State :=
  { State.reset with
    rx := { Rx.reset with
      rxState := .waitPayload, pktClass := 0x01, pktId := 0x07, pktLen := len
      byteCounter := counter, startSpot := spot } }

/-! ### Parameters -/

/-- The defaults of R4 (CAP, AW, SYNC1, SYNC2, ACK_CLASS, ACK_ID, NACK_ID, BCW, SPW), and the width of `IN` for them
(R64). -/
theorem test_parameter_defaults :
    Config.machine = ⟨276, 9, 0xB5, 0x62, 0x05, 0x01, 0x00, 17, 16⟩ ∧ Config.machine.inWidth = 94 := by decide

/-- `AW` = ceil(log2(CAP)) of other instances, at the ends of the range and around a power of two. -/
theorem test_aw_follows_cap :
    [1, 2, 256, 257, 512, 513, 65535].map (fun n => ({ cap := n } : Config).aw) = [0, 1, 8, 9, 9, 10, 16] := by decide

/-! ### Well-formedness -/

/-- Each check with a term it refuses: 276 is the first address outside the buffer (R45). -/
theorem test_wf_refuses_rd_addr_276 :
    (Instr.readPayload 276).wfError? = some (.rdAddrOutOfRange 276) ∧
    (Instr.readPayload 511).wfError? = some (.rdAddrOutOfRange 511) := by decide

/-- The last address of the buffer, and every other operand value, is well formed (R75). -/
theorem test_wf_accepts_every_other_operand :
    (Instr.readPayload 275).wf = true ∧ (Instr.readPayload 0).wf = true ∧
    (Instr.arm 0xFF 0xFF 0xFFFF).wf = true ∧ (Instr.txStart 0xFF 0xFF 0xFFFF).wf = true := by decide

/-! ### Decoding, on the words of the programs P1 to P7 -/

theorem test_decode_reset : decodeTableWord 94 0x10 = some .reset := by decide
/-- V-X2: with `rst` set the other strobes are ignored. -/
theorem test_decode_reset_overrides : decodeTableWord 94 0x16A00000E03C = some .reset := by decide
theorem test_decode_arm : decodeTableWord 94 0xE028 = some (.arm 0x01 0x07 0) := by decide
theorem test_decode_rx_byte : decodeTableWord 94 0x16A000000004 = some (.rxByte 0xB5) := by decide
theorem test_decode_tx_start : decodeTableWord 94 0xE0200000000002 = some (.txStart 0x01 0x07 0) := by decide
theorem test_decode_tx_step : decodeTableWord 94 0x1FE0000000000000000001 = some (.txStep 0xFF) := by decide
theorem test_decode_idle : decodeTableWord 94 0x0 = some .idle := by decide
/-- V-X9: fields without their strobe are ignored. -/
theorem test_decode_idle_ignores_fields : decodeTableWord 94 0x16A000000020 = some .idle := by decide
/-- P7 line 313: `IDLE @275`. -/
theorem test_decode_read_payload :
    decodeRecord { word := 0x226000000000000000000000, takesPayload := true } =
      .ok { reads := [.readPayload 275], ops := [.idle] } := by rfl
theorem test_decode_read_status :
    decodeRecord { word := 0x0, takesStatus := true } =
      .ok { reads := [.readStatus], ops := [.idle] } := by rfl
/-- P5 line 2: `ARM 0x01, 0x07 | TXS 0x01, 0x07, 2 | TXB`, in the order of R143. -/
theorem test_decode_combined :
    decodeRecord { word := 0x40E020000000E02B } =
      .ok { reads := [], ops := [.arm 0x01 0x07 0, .txStart 0x01 0x07 2, .txStep 0x00] } := by rfl
/-- R45, R75: an `rd_addr` of 276 is rejected by name. -/
theorem test_decode_rejects_rd_addr_276 :
    decodeRecord { word := packIn { rdAddr := 276 } } = .error (.rdAddrOutOfRange 276) := by rfl
/-- R64: the widest field positions, written as numbers (bit 0 up: `tx_step` to `rd_addr`). -/
theorem test_encode_words :
    (encode (.arm 0x01 0x07 0)).word = 0xE028 ∧ (encode (.rxByte 0xB5)).word = 0x16A000000004 ∧
    (encode (.txStart 0x01 0x07 0)).word = 0xE0200000000002 ∧
    (encode (.txStep 0xFF)).word = 0x1FE0000000000000000001 ∧
    (encode (.readPayload 275)).word = 0x226000000000000000000000 := by decide

/-! ### One step of each instruction -/

/-- V-X1: RESET in the middle of a frame. -/
theorem test_reset_leaves_reset_state :
    next? (exec .reset (inPayload 4 0 6)) = some State.reset := by decide
/-- V-X3. -/
theorem test_arm_loads_request :
    (next? (exec (.arm 0x01 0x07 0x0002) afterVF1)).map (fun t =>
      (t.rx.rxState, t.rx.reqClass, t.rx.reqId, t.rx.startSpot)) =
      some (.waitSync1, 0x01, 0x07, 2) := by decide
/-- V-X6: ARM and the completing byte in one cycle lose the frame. -/
theorem test_arm_with_last_byte_loses_frame :
    (next? (cycle { word := packIn { arm := true, armClass := 0x01, armId := 0x07, rxValid := true, rxData := 0x19 } }
      beforeLastOfVF1)).map (fun t => (t.rx.rxState, t.rx.rxDone, t.rx.validity)) =
      some (.waitSync1, false, .notDefined) := by decide
/-- V-R13, second byte, with V-R14's starting spot: `0x33` goes to `PB[0]`. -/
theorem test_rx_byte_stores_after_start_spot :
    (next? (exec (.rxByte 0x33) (inPayload 4 2 6))).map (fun t =>
      (t.rx.rxState, t.rx.byteCounter, t.rx.pb.read? 0)) =
      some (.waitPayload, 7, some 0x33) := by decide
/-- V-R19. -/
theorem test_rx_byte_completes_VF1 :
    next? (exec (.rxByte 0x19) beforeLastOfVF1) = some afterVF1 := by decide
/-- V-T2: a length of `CAP` is accepted. -/
theorem test_tx_start_accepts_cap :
    (next? (exec (.txStart 0x01 0x02 276) State.reset)).map (fun t =>
      (t.tx.txState, t.tx.txInvalidArg, t.tx.txLen)) = some (.txSync1, false, 276) := by decide
/-- V-T3: a length of `CAP` + 1 is not. -/
theorem test_tx_start_refuses_cap_plus_one :
    (next? (exec (.txStart 0x01 0x02 277) State.reset)).map (fun t =>
      (t.tx.txState, t.tx.txInvalidArg, t.tx.txLen)) = some (.txIdle, true, 0) := by decide
/-- The example of R169: the fourth of four payload bytes. -/
theorem test_tx_step_last_payload_byte :
    (next? (exec (.txStep 0x44) { txAt .txPayload with tx := { Tx.reset with
      txState := .txPayload, txLen := 4, txCount := 3 } })).map (fun t =>
      (t.tx.txState, t.tx.txOutValid, t.tx.txOutData, t.tx.txCount)) =
      some (.txCkA, true, 0x44, 4) := by decide
/-- V-T4. -/
theorem test_tx_step_in_idle_does_nothing :
    next? (exec (.txStep 0x55) State.reset) = some State.reset := by decide
/-- V-X7. -/
theorem test_idle_clears_rx_done :
    next? (exec .idle afterVF1) = some { afterVF1 with rx := { afterVF1.rx with rxDone := false } } := by decide
/-- V-M1, V-M6: the port shows the byte held before the edge. -/
theorem test_read_payload_gives_byte_before_edge :
    (next? (cycle { word := packIn { rxValid := true, rxData := 0x55 }, takesPayload := true }
      { inPayload 2 0 4 with rx := { (inPayload 2 0 4).rx with pb := [(0, 0x11)] } })).map (fun t =>
      (t.host.rdData, t.rx.pb.read? 0)) = some (some 0x11, some 0x55) := by decide
/-- V-M4 and V-M5: the fault of a byte never written, the refusal of an address of `CAP`. -/
theorem test_read_payload_stops :
    exec (.readPayload 0) State.reset = .fault (.unwrittenByte 0) ∧
    exec (.readPayload 276) State.reset = .refused (.inputRejected (.rdAddrOutOfRange 276)) := ⟨rfl, rfl⟩
/-- The example of R145. -/
theorem test_read_status_after_VF1 :
    ((next? (exec .readStatus afterVF1)).bind (·.host.status)).map (fun o =>
      (o.rxState, o.validity, o.matchReg, o.rxDone)) = some (0x9, 0b01, 0b01, 1) := by decide
/-- P1, from a word placed where the step samples its input: `TXS 0x01, 0x07, 0 | TXB` emits 0xB5. -/
theorem test_step_runs_the_placed_word :
    (next? (step (State.reset.withFetchWord 94 0xE0200000000003))).map (fun t =>
      (t.tx.txState, t.tx.txOutValid, t.tx.txOutData)) = some (.txSync2, true, 0xB5) := by decide
/-- V-C3, V-C7. -/
theorem test_checksum_wraps :
    update (0xFF, 0xFF) 0x01 = (0x00, 0xFF) ∧ compute [0xFF, 0xFF, 0xFF, 0xFF] = (0xFC, 0xF6) := by decide
/-- V-K9, V-K3, V-K6: the requested pair first, then NACK, and no ACK verdict. -/
theorem test_classifier_order :
    classify Config.machine 0x05 0x00 0x05 0x00 = .valid ∧
    classify Config.machine 0x05 0x00 0x06 0x04 = .notAcknowledged ∧
    classify Config.machine 0x05 0x01 0x06 0x04 = .notValid := by decide
/-- V-F8. -/
theorem test_frame_VF8 :
    frame 0x06 0x04 [0xFF, 0xFF, 0x00, 0x00] =
      [0xB5, 0x62, 0x06, 0x04, 0x04, 0x00, 0xFF, 0xFF, 0x00, 0x00, 0x0C, 0x5D] := by decide

/-! ### Witnesses: states and operands that meet the hypotheses of the statements

A statement whose only hypothesis is `s.legal = true`, or that together with one value of a state register, has its
witness in the next four; the others have one of their own name, each clause at a boundary value. -/

/-- A legal state in every `rx_state`. -/
theorem witness_legal_in_every_rx_state :
    ∀ r ∈ [RxState.waitSync1, .waitSync2, .waitClass, .waitId, .waitLen1, .waitLen2, .waitPayload,
      .waitChecksumA, .waitChecksumB, .complete],
      (rxAt r).legal = true ∧ (rxAt r).rx.rxState = r := by decide

/-- A legal state in every `tx_state`. -/
theorem witness_legal_in_every_tx_state :
    ∀ t ∈ [TxState.txIdle, .txSync1, .txSync2, .txClass, .txId, .txLenL, .txLenH, .txPayload, .txCkA, .txCkB],
      (txAt t).legal = true ∧ (txAt t).tx.txState = t := by decide

/-- A state with each kind of reserved code is not legal (the first and the last code of each). -/
theorem witness_reserved_codes :
    (rxAt (.reserved 0)).legal = false ∧ (rxAt (.reserved 5)).legal = false ∧
    (txAt (.reserved 0)).legal = false ∧ (txAt (.reserved 5)).legal = false ∧
    ({ State.reset with rx := { Rx.reset with validity := .reserved } } : State).legal = false := by decide

/-- Every operation has a next state somewhere. -/
theorem witness_exec_next :
    (∀ i ∈ [Instr.reset, .arm 0x01 0x07 0, .rxByte 0xB5, .txStart 0x01 0x07 0, .txStep 0x00, .idle, .readStatus],
      (next? (exec i State.reset)).isSome = true) ∧
    (next? (exec (.readPayload 0)
      { State.reset with rx := { Rx.reset with pb := [(0, 0x11)] } })).isSome = true := by decide

/-- A completing byte in a state that no ARM has reached. -/
theorem witness_ResetStateHoldsTheSpecValues :
    (rxAt .waitChecksumB).legal = true ∧ (rxAt .waitChecksumB).rx.rxState = .waitChecksumB ∧
    (rxAt .waitChecksumB).rx.reqValid = false := by decide

/-- The word of V-X2; and an armed state that IDLE leaves armed. -/
theorem witness_ResetWritesEveryRegister :
    ({ word := 0x16A00000E03C } : InRecord).Legal ∧ ({ word := 0x16A00000E03C } : InRecord).Quiet ∧
    (unpackIn 0x16A00000E03C).rst = true ∧
    Instr.idle ≠ .reset ∧ (∃ t, exec .idle afterVF1 = .next t) ∧ afterVF1.rx.reqValid = true :=
  ⟨by decide, by decide, by decide, by decide, ⟨_, rfl⟩, rfl⟩

/-- V-R15 (starting spot equal to the length, last payload byte) and V-R16 (above it). -/
theorem witness_ArmRestartsTheReceiver :
    ((inPayload 4 4 7).rx.pktLen.toNat ≤ (inPayload 4 4 7).rx.startSpot.toNat ∧
      payloadIndex (inPayload 4 4 7).rx < ((inPayload 4 4 7).rx.pktLen.toNat : Int)) ∧
    ((inPayload 4 5 4).rx.pktLen.toNat ≤ (inPayload 4 5 4).rx.startSpot.toNat ∧
      payloadIndex (inPayload 4 5 4).rx < ((inPayload 4 5 4).rx.pktLen.toNat : Int)) := by decide

/-- A written byte at the last address, an unwritten one, and the first address outside. -/
theorem witness_ReadPayloadGivesTheStoredByte :
    ((275 : RdAddr).toNat < Config.machine.cap ∧ Memory.read? [(275, 0x13)] (275 : RdAddr).toNat = some 0x13) ∧
    ((275 : RdAddr).toNat < Config.machine.cap ∧ Memory.read? [] (275 : RdAddr).toNat = none) ∧
    Config.machine.cap ≤ (276 : RdAddr).toNat := by decide

/-- A word whose `rd_addr` is 276; the default capacity, and 256, which leaves no such address. -/
theorem witness_OutOfRangeReadIsRefused :
    Config.machine.cap ≤ (unpackIn (packIn { rdAddr := 276 })).rdAddr.toNat ∧
    Config.machine.Legal ∧ ({ cap := 256 } : Config).Legal :=
  ⟨by decide, ⟨by decide, by decide⟩, ⟨by decide, by decide⟩⟩

/-- A cycle in which the host takes both outputs. -/
theorem witness_OutputsShowTheStateBeforeTheEdge :
    ∃ t, cycle { word := packIn {}, takesPayload := true, takesStatus := true }
      { State.reset with rx := { Rx.reset with pb := [(0, 0x11)] } } = .next t := ⟨_, rfl⟩

/-- V-C11: bit 0 of the first payload byte of V-F7 flipped on the way. -/
theorem witness_SingleBitFlipIsDetected :
    let s : State := { State.reset with rx := { Rx.reset with
      rxState := .waitChecksumB, ckAccA := 0xB5, ckAccB := 0xA1, ckRxA := 0xB6 } }
    s.legal = true ∧ s.rx.rxState = .waitChecksumB ∧
    (s.rx.ckAccA, s.rx.ckAccB) =
      compute ([0x01, 0x07, 0x04, 0x00] ++ (0x11 ^^^ BitVec.twoPow 8 0) :: [0x22, 0x33, 0x44]) ∧
    s.rx.ckRxA = (compute ([0x01, 0x07, 0x04, 0x00] ++ 0x11 :: [0x22, 0x33, 0x44])).1 := by decide

/-- Storing at the first and at the last address; not storing one byte before the spot and one byte beyond
capacity. -/
theorem witness_PayloadByteIsStoredWithinCapacity :
    (∀ s ∈ [inPayload 4 0 4, inPayload 300 0 279, inPayload 4 2 5, inPayload 300 0 280],
      s.legal = true ∧ s.rx.rxState = .waitPayload) ∧
    [inPayload 4 0 4, inPayload 300 0 279, inPayload 4 2 5, inPayload 300 0 280].map
      (fun s => storeAddr? Config.machine s.rx) = [some 0, some 275, none, none] := by decide

/-- A matching and a mismatching checksum, armed and not. -/
theorem witness_ChecksumBCompletesTheFrame :
    beforeLastOfVF1.legal = true ∧ beforeLastOfVF1.rx.rxState = .waitChecksumB ∧
    beforeLastOfVF1.rx.reqValid = true ∧ (rxAt .waitChecksumB).rx.reqValid = false ∧
    (beforeLastOfVF1.rx.ckAccA = beforeLastOfVF1.rx.ckRxA ∧ beforeLastOfVF1.rx.ckAccB = 0x19) ∧
    ¬ (beforeLastOfVF1.rx.ckAccA = beforeLastOfVF1.rx.ckRxA ∧ beforeLastOfVF1.rx.ckAccB = 0x18) := by decide

/-- V-X6's word: legal, quiet, no RESET, with ARM and a byte. -/
theorem witness_ArmedByteCannotCompleteAFrame :
    let r : InRecord := { word := packIn { arm := true, armClass := 0x01, armId := 0x07, rxValid := true, rxData := 0x19 } }
    r.Legal ∧ r.Quiet ∧ (unpackIn r.word).rst = false ∧ (unpackIn r.word).arm = true := by decide

/-- The two lengths on either side of the limit. -/
theorem witness_TxStartChecksTheLength :
    (277 : Half).toNat > Config.machine.cap ∧ (276 : Half).toNat ≤ Config.machine.cap := by decide

/-- A state and a cycle in which `tx_pay` is not read. -/
theorem witness_TxPayMattersOnlyInPayload :
    State.reset.tx.txState ≠ .txPayload ∧
    (({ txStep := true } : InFields).txStep = true → ({ txStep := true } : InFields).rst = false →
      ({ txStep := true } : InFields).txStart = false → State.reset.tx.txState ≠ .txPayload) := by decide

/-- A payload byte cycle of each kind, and a cycle without one. -/
theorem witness_OnlyPayloadBytesWriteTheBuffer :
    (∃ t, cycle (encode (.rxByte 0x11)) (inPayload 300 0 279) = .next t) ∧
    (∃ t, cycle (encode (.rxByte 0x11)) (inPayload 300 0 280) = .next t) ∧
    (∃ t, cycle (encode (.txStep 0x11)) (inPayload 300 0 280) = .next t) ∧
    (unpackIn (encode (.rxByte 0x11)).word).rst = false ∧
    (unpackIn (encode (.txStep 0x11)).word).rst = false :=
  ⟨⟨_, rfl⟩, ⟨_, rfl⟩, ⟨_, rfl⟩, by decide, by decide⟩

/-- A line with every field, reading the last address. -/
def fullLine : Line :=
  { arm := some (1, 7, 0), rx := some 0xB5, txs := some (1, 7, 0), txb := some 0, readAt := some 275 }

/-- The well-formed read of the last address, and a line with every field. -/
theorem witness_DecodeEncode :
    (Instr.readPayload 275).wf = true ∧
    (∀ a, fullLine.readAt = some a → a.toNat < Config.machine.cap) :=
  ⟨by decide, fun a h => by cases h; decide⟩

/-- A script whose next record is one instruction's; that record decodes. -/
theorem witness_StepRunsTheDecodedInstruction :
    let s : State := { State.reset with host := { HostSide.reset with inputs := [encode (.arm 0x01 0x07 0)] } }
    s.host.inputs = encode (.arm 0x01 0x07 0) :: [] ∧ (Instr.arm 0x01 0x07 0).wf = true ∧
    decodeRecord (encode (.arm 0x01 0x07 0)) = .ok { reads := [], ops := [.arm 0x01 0x07 0] } ∧
    (Instr.readPayload 0).wf = true ∧ Instr.readStatus.wf = true := ⟨rfl, by decide, rfl, by decide, by decide⟩

/-- A legal and quiet record with all four strobes; one with `rst` as well. -/
theorem witness_CycleAppliesStrobesInOrder :
    let r : InRecord := { word := packIn { arm := true, rxValid := true, txStart := true, txStep := true } }
    let r' : InRecord := { word := packIn { rst := true, arm := true, rxValid := true } }
    r.Legal ∧ r.Quiet ∧ r'.Legal ∧ r'.Quiet ∧ State.reset.legal = true := by decide

/-- A cycle that sets `rx_done`, one that sets `tx_done`, one that sets neither. -/
theorem witness_PulsesLastOneCycle :
    (∃ t, cycle (encode (.rxByte 0x19)) beforeLastOfVF1 = .next t ∧ t.rx.rxDone = true) ∧
    (∃ t, cycle (encode (.txStep 0x00)) (txAt .txCkB) = .next t ∧ t.tx.txDone = true) ∧
    (∃ t, cycle (encode .idle) afterVF1 = .next t ∧ t.tx.txOutValid = false) ∧
    (unpackIn (encode .idle).word).rst = false :=
  ⟨⟨_, rfl, rfl⟩, ⟨_, rfl, rfl⟩, ⟨_, rfl, rfl⟩, by decide⟩

/-- V-X9's fields against none: both IDLE. -/
theorem witness_UnstrobedFieldsHaveNoEffect :
    let f : InFields := { rxData := 0xB5, armClass := 0x01 }
    let g : InFields := {}
    let g' : InFields := { rdAddr := 275 }
    (f.rdAddr = g.rdAddr ∧ f.rdAddr.toNat < Config.machine.cap ∧ g'.rdAddr.toNat < Config.machine.cap) ∧
    f.rst = g.rst ∧ f.arm = g.arm ∧ f.rxValid = g.rxValid ∧ f.txStart = g.txStart ∧
    f.txStep = g.txStep ∧ f.arm = false ∧ f.rxValid = false ∧ f.txStart = false ∧ f.txStep = false := by decide

/-- A legal record and one that is not. -/
theorem witness_OnlyReservedStatesAndBadAddressesStop :
    (encode (.rxByte 0xB5)).Legal ∧ (encode (.rxByte 0xB5)).takesPayload = false ∧
    ¬ (encode (.readPayload 276)).Legal ∧ (∃ t, cycle (encode .idle) State.reset = .next t) :=
  ⟨by decide, by decide, by decide, ⟨_, rfl⟩⟩

/-- Two cycles that share the receive side and its inputs, and differ on the transmit side. -/
theorem witness_SidesShareNoState :
    (∃ t, cycle { word := packIn { rxValid := true, rxData := 0xB5 } } State.reset = .next t) ∧
    (∃ t, cycle { word := packIn { rxValid := true, rxData := 0xB5, txStep := true } } (txAt .txSync1) = .next t) ∧
    State.reset.rx = (txAt .txSync1).rx := ⟨⟨_, rfl⟩, ⟨_, rfl⟩, rfl⟩

/-- The transmit side at reset meets its invariant. -/
theorem reset_tx_inv : Tx.reset.Inv Config.machine := ⟨trivial, by decide, by decide, by decide⟩

/-- The completed frame V-F1 meets the invariant. -/
theorem afterVF1_inv : afterVF1.Inv :=
  ⟨⟨⟨by decide, rfl, by decide, by decide⟩, rfl, by decide, fun _ => rfl⟩, reset_tx_inv⟩

/-- V-F1 before its last byte meets it. -/
theorem beforeLastOfVF1_inv : beforeLastOfVF1.Inv :=
  ⟨⟨⟨⟨rfl, rfl, rfl, rfl⟩, by decide⟩, rfl, by decide, by decide⟩, reset_tx_inv⟩

/-- The state after an accepted sync pair meets it. -/
theorem waitClass_inv : (rxAt .waitClass).Inv :=
  ⟨⟨rfl, rfl, by decide, by decide⟩, reset_tx_inv⟩

/-- V-R27's shape: the first payload byte of a frame of length 65535 is due. -/
theorem longest_payload_inv : (inPayload 65535 0 4).Inv :=
  ⟨⟨⟨⟨rfl, rfl, rfl, rfl⟩, by decide, by decide⟩, rfl, by decide, by decide⟩, reset_tx_inv⟩

/-- A step from a state of the invariant. -/
theorem witness_StepKeepsTheInvariant :
    afterVF1.Inv ∧ ∃ t, step (afterVF1.withInput (encode (.rxByte 0xB5))) = .next t :=
  ⟨afterVF1_inv, _, rfl⟩

/-- `Complete`, and the last payload byte of the longest frame. -/
theorem witness_ByteCounterNeverWraps :
    (afterVF1.Inv ∧ afterVF1.rx.rxState = .complete) ∧
    ((inPayload 65535 0 4).Inv ∧ (inPayload 65535 0 4).rx.rxState = .waitPayload ∧
      inFrame (inPayload 65535 0 4).rx = true) := ⟨⟨afterVF1_inv, rfl⟩, longest_payload_inv, rfl, rfl⟩

/-- A cycle that keeps a verdict, one that clears it, one that sets it, one that leaves it open. -/
theorem witness_VerdictIsSetOncePerFrame :
    (afterVF1.Inv ∧ (∃ t, cycle (encode .idle) afterVF1 = .next t ∧ t.rx.validity = .valid) ∧
      (∃ t, cycle (encode (.arm 1 7 0)) afterVF1 = .next t ∧ t.rx.Cleared) ∧
      afterVF1.rx.validity ≠ .notDefined) ∧
    (beforeLastOfVF1.Inv ∧ beforeLastOfVF1.rx.validity = .notDefined ∧
      (∃ t, cycle (encode (.rxByte 0x19)) beforeLastOfVF1 = .next t ∧ t.rx.validity ≠ .notDefined) ∧
      (∃ t, cycle (encode .idle) beforeLastOfVF1 = .next t ∧ t.rx.validity = .notDefined)) :=
  ⟨⟨afterVF1_inv, ⟨_, rfl, rfl⟩, ⟨_, rfl, rfl⟩, by decide⟩,
    beforeLastOfVF1_inv, rfl, ⟨_, rfl, by decide⟩, ⟨_, rfl, rfl⟩⟩

/-- `RX` lines and `IDLE` lines leave the receive framer to its bytes, and present the bytes of the `RX` lines. -/
theorem feed_receives (bs : List Byte) :
    (∀ r ∈ (feed bs).map Line.record, r.ReceivesOn) ∧ receivedBytes ((feed bs).map Line.record) = bs := by
  have addr : ∀ b : Byte, (unpackIn (Line.record { rx := some b }).word) = ({ rx := some b } : Line).fields := by
    decide
  constructor
  · intro r hr
    simp only [feed, List.map_map, List.mem_map, Function.comp_apply] at hr
    obtain ⟨b, -, rfl⟩ := hr
    exact ⟨⟨by rw [InRecord.Legal, addr b]; show (0 : RdAddr).toNat < _; decide, rfl, by rw [addr b]; rfl⟩, by rw [addr b]; rfl⟩
  · simp only [receivedBytes, feed, List.map_map, List.filterMap_map]
    have : ((fun r => if (unpackIn r.word).rxValid then some (unpackIn r.word).rxData else none) ∘
        (Line.record ∘ fun b : Byte => ({ rx := some b } : Line))) = some := by
      funext b; simp only [Function.comp_apply, addr b]; rfl
    rw [this]; exact List.filterMap_some

/-- The frame of length 0, whole and without its last byte; one byte; and the longest, of length 65535. -/
theorem witness_FrameTakesExactlyItsLength :
    (rxAt .waitClass).Inv ∧ (rxAt .waitClass).rx.rxState = .waitClass ∧
    (∀ bs ∈ [([] : List Byte), [0x01], [0x01, 0x07, 0x00, 0x00, 0x08], [0x01, 0x07, 0x00, 0x00, 0x08, 0x19]],
      bs.length < 4 ∨ bs.length ≤ (bs.getD 3 0).toNat * 256 + (bs.getD 2 0).toNat + 6) ∧
    ([0x01, 0x07, 0xFF, 0xFF] ++ List.replicate 65537 (0 : Byte)).length =
      (0xFF : Byte).toNat * 256 + (0xFF : Byte).toNat + 6 :=
  ⟨waitClass_inv, rfl, by decide, by rw [List.length_append, List.length_replicate]; decide⟩

/-- Payloads of length 0 and 65535, from `Complete`; the records are those of `feed_receives`. -/
theorem witness_CompletedFrameStoresItsPayload :
    afterVF1.Inv ∧ afterVF1.rx.rxState = .complete ∧ ([] : List Byte).length ≤ 65535 ∧
    (List.replicate 65535 (0 : Byte)).length ≤ 65535 ∧
    ∃ rs : List InRecord, (∀ r ∈ rs, r.ReceivesOn) ∧
      receivedBytes rs = [0xB5, 0x62] ++ coveredBytes 0x01 0x07 (BitVec.ofNat 16 0) [] ++ [0x08, 0x19] :=
  ⟨afterVF1_inv, rfl, by decide, List.length_replicate.le, _, feed_receives _⟩

/-- Payloads of length 0, of length `CAP` and of length `CAP` + 1, from `Complete` with `start_spot` = 0; the
records are those of `feed_receives`. -/
theorem witness_FramesReceivedWhole :
    afterVF1.Inv ∧ afterVF1.rx.rxState = .complete ∧ afterVF1.rx.startSpot = 0 ∧
    ([] : List Byte).length ≤ Config.machine.cap ∧
    (List.replicate 276 (0 : Byte)).length ≤ Config.machine.cap ∧
    Config.machine.cap < (List.replicate 277 (0 : Byte)).length ∧
    (List.replicate 277 (0 : Byte)).length ≤ 65535 ∧
    ∀ p : List Byte, ∃ rs : List InRecord, (∀ r ∈ rs, r.ReceivesOn) ∧ receivedBytes rs = frame 0x01 0x07 p := by
  refine ⟨afterVF1_inv, rfl, rfl, by decide, ?_, ?_, ?_, fun _ => ⟨_, feed_receives _⟩⟩ <;>
    rw [List.length_replicate] <;> decide

/-- V-R6's bytes after the doubled sync byte hold no 0xB5. -/
theorem witness_DoubledSyncByteMissesTheFrame :
    State.reset.legal = true ∧ State.reset.rx.rxState = .waitSync1 ∧
    (0xB5 : Byte) ∉ ([0x01, 0x07, 0x00, 0x00, 0x08, 0x19] : List Byte) ∧
    ∃ rs : List InRecord, (∀ r ∈ rs, r.ReceivesOn) ∧
      receivedBytes rs = [0xB5, 0xB5, 0x62] ++ [0x01, 0x07, 0x00, 0x00, 0x08, 0x19] :=
  ⟨by decide, rfl, by decide, _, feed_receives _⟩

/-- A cycle with a byte and one without, inside a frame. -/
theorem witness_NoAbortInsideAFrame :
    (∃ t, cycle (encode (.rxByte 0xB5)) beforeLastOfVF1 = .next t) ∧
    (∃ t, cycle (encode .idle) beforeLastOfVF1 = .next t) ∧ inFrame beforeLastOfVF1.rx = true ∧
    (unpackIn (encode (.rxByte 0xB5)).word).arm = false ∧ (unpackIn (encode .idle).word).rxValid = false :=
  ⟨⟨_, rfl⟩, ⟨_, rfl⟩, rfl, by decide, by decide⟩

/-- V-R24: the first byte of the next frame's sync pair. -/
theorem witness_RecordStaysReadable :
    (∃ t, cycle (encode (.rxByte 0xB5)) afterVF1 = .next t) ∧ inFrame afterVF1.rx = false ∧
    afterVF1.rx.rxState = .complete ∧ (unpackIn (encode (.rxByte 0xB5)).word).rxValid = true :=
  ⟨⟨_, rfl⟩, rfl, rfl, by decide⟩

/-- A cycle with ARM and a TX_START at the limit, one with a TX_START beyond it, one with neither. -/
theorem witness_ArgumentsComeFromTheirOperation :
    (∃ t, cycle { word := packIn { arm := true, txStart := true, txLen := 276 } } afterVF1 = .next t) ∧
    (∃ t, cycle (encode (.txStart 0x01 0x02 277)) afterVF1 = .next t) ∧
    (∃ t, cycle (encode .idle) afterVF1 = .next t) := ⟨⟨_, rfl⟩, ⟨_, rfl⟩, ⟨_, rfl⟩⟩

/-- A completion with a request armed, and one without. -/
theorem witness_CompletionReportsOneOutcome :
    (afterVF1.Inv ∧ afterVF1.rx.rxDone = true ∧ afterVF1.rx.reqValid = true) ∧
    (∃ s : State, s.Inv ∧ s.rx.rxDone = true ∧ s.rx.reqValid = false) :=
  ⟨⟨afterVF1_inv, rfl, rfl⟩,
    { afterVF1 with rx := { afterVF1.rx with matchReg := .notDefined, reqValid := false } },
    ⟨⟨⟨by decide, rfl, by decide, by decide⟩, rfl, by decide, fun _ => rfl⟩, reset_tx_inv⟩, rfl, rfl⟩

/-- The cycles of `SEND 0x06, 0x04, FF FF 00 00` (V-T6) with an IDLE cycle among them, from a busy state. -/
theorem witness_TransmittedBytesAreTheFrame :
    let r : InRecord := { word := packIn { txStart := true, txStep := true, txClass := 0x06, txId := 0x04, txLen := 4 } }
    let step (b : Byte) : InRecord := encode (.txStep b)
    let rs := [step 0, step 0, encode .idle, step 0, step 0, step 0, step 0xFF, step 0xFF, step 0, step 0, step 0, step 0]
    (txAt .txPayload).legal = true ∧ (∀ q ∈ r :: rs, q.Smooth) ∧
    (unpackIn r.word).txStart = true ∧ (unpackIn r.word).txClass = 0x06 ∧ (unpackIn r.word).txId = 0x04 ∧
    (unpackIn r.word).txLen = BitVec.ofNat 16 4 ∧ (∀ q ∈ rs, (unpackIn q.word).txStart = false) ∧
    (suppliedBytes (r :: rs)).length = 4 + 8 ∧
    ((suppliedBytes (r :: rs)).drop 6).take 4 = [0xFF, 0xFF, 0x00, 0x00] := by decide

/-- The idle output of `Complete`, and payloads of length 0 and `CAP`. -/
theorem witness_LoopbackRoundTrips :
    afterVF1.Inv ∧ afterVF1.rx.rxState = .complete ∧ afterVF1.rx.startSpot = 0 ∧
    afterVF1.tx.txOutValid = false ∧ ([] : List Byte).length ≤ Config.machine.cap ∧
    (List.replicate 276 (0 : Byte)).length ≤ Config.machine.cap :=
  ⟨afterVF1_inv, rfl, rfl, rfl, by decide, List.length_replicate.le⟩

/-- A busy legal state, and payloads of length 0 and `CAP`. -/
theorem witness_SendEmitsExactlyTheFrame :
    (txAt .txPayload).legal = true ∧ ([] : List Byte).length ≤ Config.machine.cap ∧
    (List.replicate 276 (0 : Byte)).length ≤ Config.machine.cap :=
  ⟨by decide, by decide, List.length_replicate.le⟩

end Sys2Proof.Tests
end

/-! The two sides share no state (spec/00_scope.md R3; spec/44_tx_framer.md R175). -/

namespace Sys2Proof.Machine

/-- `rxCycle` reads only the receive inputs: ARM with its operands, RX_BYTE with its byte. -/
theorem rxCycle_congr {f g : InFields} (harm : f.arm = g.arm) (hcls : f.armClass = g.armClass)
    (hid : f.armId = g.armId) (hspot : f.armSpot = g.armSpot) (hvalid : f.rxValid = g.rxValid)
    (hdata : f.rxData = g.rxData) (r : Rx) : rxCycle f r = rxCycle g r := by
  simp only [rxCycle, harm, hcls, hid, hspot, hvalid, hdata]

/-- `txCycle` reads only the transmit inputs: TX_START with its operands, TX_STEP with its byte. -/
theorem txCycle_congr {f g : InFields} (hstart : f.txStart = g.txStart) (hcls : f.txClass = g.txClass)
    (hid : f.txId = g.txId) (hlen : f.txLen = g.txLen) (hstep : f.txStep = g.txStep)
    (hpay : f.txPay = g.txPay) (t : Tx) : txCycle f t = txCycle g t := by
  simp only [txCycle, hstart, hcls, hid, hlen, hstep, hpay]

/-- Settles O42: under RESET both cycles leave the reset sides; otherwise `cycle_next_sides` gives each side as
a function of that side and the fields that the two words share. -/
theorem sidesShareNoState : Obligations.SidesShareNoState := by
  intro r r' s s' t t' h h' f g hrst
  obtain ⟨-, hreset, hrun⟩ := cycle_next_sides h
  obtain ⟨-, hreset', hrun'⟩ := cycle_next_sides h'
  cases hf : f.rst with
  | true =>
    obtain ⟨hrx, htx⟩ := hreset hf
    obtain ⟨hrx', htx'⟩ := hreset' (hrst ▸ hf)
    exact ⟨fun _ _ _ _ _ _ _ => hrx.trans hrx'.symm, fun _ _ _ _ _ _ _ => htx.trans htx'.symm⟩
  | false =>
    obtain ⟨hrx, htx⟩ := hrun hf
    obtain ⟨hrx', htx'⟩ := hrun' (hrst ▸ hf)
    constructor
    · intro hside harm hcls hid hspot hvalid hdata
      apply Option.some.inj
      calc some t.rx
        _ = rxCycle f s.rx := hrx.symm
        _ = rxCycle g s'.rx := by rw [hside, rxCycle_congr harm hcls hid hspot hvalid hdata]
        _ = some t'.rx := hrx'
    · intro hside hstart hcls hid hlen hstep hpay
      apply Option.some.inj
      calc some t.tx
        _ = txCycle f s.tx := htx.symm
        _ = txCycle g s'.tx := by rw [hside, txCycle_congr hstart hcls hid hlen hstep hpay]
        _ = some t'.tx := htx'

end Sys2Proof.Machine

/-! What RX_BYTE can do, rule by rule, and what each rule leaves unchanged (spec/41_rx_framer.md R102 to R111). -/

namespace Sys2Proof.Machine

/-- The rules of RX_BYTE: `RxByteRule c b r r'` says that a rule takes the receive side `r` to `r'` on the byte `b`.
The two outcomes of `WaitSync2` (R103) are rules of their own, and `Complete` shares the scan of `WaitSync1` (R111). -/
inductive RxByteRule (c : Config) (b : Byte) (r : Rx) : Rx → Prop
  | scan (hs : r.rxState = .waitSync1 ∨ r.rxState = .complete) : RxByteRule c b r (rxScanSync1 c b r)
  | sync2Accepted (hs : r.rxState = .waitSync2) (hb : b = c.sync2) :
      RxByteRule c b r { clearFrame r with rxState := .waitClass }
  | sync2Missed (hs : r.rxState = .waitSync2) (hb : b ≠ c.sync2) :
      RxByteRule c b r { r with rxState := .waitSync1 }
  | waitClass (hs : r.rxState = .waitClass) : RxByteRule c b r (rxInWaitClass b r)
  | waitId (hs : r.rxState = .waitId) : RxByteRule c b r (rxInWaitId b r)
  | waitLen1 (hs : r.rxState = .waitLen1) : RxByteRule c b r (rxInWaitLen1 b r)
  | waitLen2 (hs : r.rxState = .waitLen2) : RxByteRule c b r (rxInWaitLen2 b r)
  | waitPayload (hs : r.rxState = .waitPayload) : RxByteRule c b r (rxInWaitPayload c b r)
  | waitChecksumA (hs : r.rxState = .waitChecksumA) : RxByteRule c b r (rxInWaitChecksumA b r)
  | waitChecksumB (hs : r.rxState = .waitChecksumB) : RxByteRule c b r (rxInWaitChecksumB c b r)

/-- The rules are RX_BYTE: it answers exactly what one of them gives. -/
theorem rxByteStep_eq_some_iff {c : Config} {b : Byte} {r r' : Rx} :
    rxByteStep c b r = some r' ↔ RxByteRule c b r r' := by
  constructor
  · intro h
    unfold rxByteStep at h
    split at h <;> cases h
    case h_1 hs => exact .scan (.inl hs)
    case h_2 hs =>
      unfold rxInWaitSync2
      split
      · exact .sync2Accepted hs ‹_›
      · exact .sync2Missed hs ‹_›
    case h_3 hs => exact .waitClass hs
    case h_4 hs => exact .waitId hs
    case h_5 hs => exact .waitLen1 hs
    case h_6 hs => exact .waitLen2 hs
    case h_7 hs => exact .waitPayload hs
    case h_8 hs => exact .waitChecksumA hs
    case h_9 hs => exact .waitChecksumB hs
    case h_10 hs => exact .scan (.inr hs)
  · intro h
    cases h with
    | scan hs => obtain hs | hs := hs <;> simp only [rxByteStep, hs]
    | sync2Accepted hs hb => simp only [rxByteStep, hs, rxInWaitSync2, if_pos hb]
    | sync2Missed hs hb => simp only [rxByteStep, hs, rxInWaitSync2, if_neg hb]
    | waitClass hs | waitId hs | waitLen1 hs | waitLen2 hs | waitPayload hs | waitChecksumA hs
    | waitChecksumB hs => simp only [rxByteStep, hs]

/-- Inside a frame: one of the seven states from `WaitClass` to `WaitChecksumB` (R33). -/
theorem inFrame_iff (r : Rx) : inFrame r = true ↔ r.rxState ∈
    [RxState.waitClass, .waitId, .waitLen1, .waitLen2, .waitPayload, .waitChecksumA, .waitChecksumB] := by
  unfold inFrame
  cases r.rxState <;> simp

section Frame

variable {c : Config} {b : Byte} {r r' : Rx}

/-- No byte writes the request or the starting spot (R22 to R24). -/
theorem RxByteRule.request_eq (h : RxByteRule c b r r') : r'.reqClass = r.reqClass ∧ r'.reqId = r.reqId ∧
    r'.reqValid = r.reqValid ∧ r'.startSpot = r.startSpot := by
  cases h <;> exact ⟨rfl, rfl, rfl, rfl⟩

theorem RxByteRule.pb_eq (h : RxByteRule c b r r') (hs : r.rxState ≠ .waitPayload) : r'.pb = r.pb := by
  cases h
  case waitPayload hp => exact absurd hp hs
  all_goals rfl

/-- In `WaitPayload` a byte of the buffer outside the storage address stays (R42, R108). -/
theorem RxByteRule.read?_pb_eq (h : RxByteRule c b r r') (hs : r.rxState = .waitPayload) {a : Nat}
    (ha : storeAddr? c r ≠ some a) : r'.pb.read? a = r.pb.read? a := by
  rw [← rxByteStep_eq_some_iff, rxByteStep, hs] at h
  cases h
  cases hst : storeAddr? c r with
  | none => simp [rxInWaitPayload, hst]
  | some k =>
    have hak : a ≠ k := fun e => ha (hst.trans (congrArg some e.symm))
    simp [rxInWaitPayload, hst, read?_write_other _ _ _ _ hak]

theorem RxByteRule.rxDone_eq (h : RxByteRule c b r r') (hs : r.rxState ≠ .waitChecksumB) :
    r'.rxDone = r.rxDone := by
  cases h
  case waitChecksumB hB => exact absurd hB hs
  all_goals rfl

/-- Every byte inside a frame is counted (R15). -/
theorem RxByteRule.byteCounter_succ (h : RxByteRule c b r r') (hf : inFrame r = true) :
    r'.byteCounter = r.byteCounter + 1 := by
  cases h
  case scan hs => obtain hs | hs := hs <;> simp [inFrame, hs] at hf
  case sync2Accepted hs _ => simp [inFrame, hs] at hf
  case sync2Missed hs _ => simp [inFrame, hs] at hf
  all_goals rfl

end Frame

/-! ### The record, in a byte that does not begin a frame

Each register of the record keeps its value outside the states that write it. -/

section Record

variable {c : Config} {b : Byte} {r r' : Rx} (h : RxByteRule c b r r')
  (hn : ¬ (r.rxState = .waitSync2 ∧ b = c.sync2))
include h hn

theorem RxByteRule.pktClass_eq (hs : r.rxState ≠ .waitClass) : r'.pktClass = r.pktClass := by
  cases h
  case sync2Accepted h2 hb => exact absurd ⟨h2, hb⟩ hn
  case waitClass h1 => exact absurd h1 hs
  all_goals rfl

theorem RxByteRule.pktId_eq (hs : r.rxState ≠ .waitId) : r'.pktId = r.pktId := by
  cases h
  case sync2Accepted h2 hb => exact absurd ⟨h2, hb⟩ hn
  case waitId h1 => exact absurd h1 hs
  all_goals rfl

theorem RxByteRule.pktLen_eq (h1 : r.rxState ≠ .waitLen1) (h2 : r.rxState ≠ .waitLen2) :
    r'.pktLen = r.pktLen := by
  cases h
  case sync2Accepted hs hb => exact absurd ⟨hs, hb⟩ hn
  case waitLen1 hs => exact absurd hs h1
  case waitLen2 hs => exact absurd hs h2
  all_goals rfl

theorem RxByteRule.ckAcc_eq
    (hs : r.rxState ∉ [RxState.waitClass, .waitId, .waitLen1, .waitLen2, .waitPayload]) :
    r'.ckAccA = r.ckAccA ∧ r'.ckAccB = r.ckAccB := by
  cases h
  case sync2Accepted h2 hb => exact absurd ⟨h2, hb⟩ hn
  case waitClass hc | waitId hc | waitLen1 hc | waitLen2 hc | waitPayload hc => simp [hc] at hs
  all_goals exact ⟨rfl, rfl⟩

theorem RxByteRule.byteCounter_eq (hf : inFrame r = false) : r'.byteCounter = r.byteCounter := by
  cases h
  case scan => rfl
  case sync2Accepted h2 hb => exact absurd ⟨h2, hb⟩ hn
  case sync2Missed => rfl
  case waitClass hs | waitId hs | waitLen1 hs | waitLen2 hs | waitPayload hs | waitChecksumA hs
    | waitChecksumB hs => simp [inFrame, hs] at hf

theorem RxByteRule.ckRxA_eq (hs : r.rxState ≠ .waitChecksumA) : r'.ckRxA = r.ckRxA := by
  cases h
  case sync2Accepted h2 hb => exact absurd ⟨h2, hb⟩ hn
  case waitChecksumA hA => exact absurd hA hs
  all_goals rfl

/-- The verdicts and checksum B are written in the completing state alone (R34). -/
theorem RxByteRule.verdict_eq (hs : r.rxState ≠ .waitChecksumB) : r'.ckRxB = r.ckRxB ∧
    r'.validity = r.validity ∧ r'.matchReg = r.matchReg ∧ r'.overwritten = r.overwritten := by
  cases h
  case sync2Accepted h2 hb => exact absurd ⟨h2, hb⟩ hn
  case waitChecksumB hB => exact absurd hB hs
  all_goals exact ⟨rfl, rfl, rfl, rfl⟩

end Record

end Sys2Proof.Machine

/-! The invariant of the receive side: RX_BYTE, ARM and the pulse clearing keep it (spec/10_state.md R14, R15, R18 to
R21, R34; spec/41_rx_framer.md R113). -/

namespace Sys2Proof.Machine

/-- A stored payload byte keeps the canonical form of the buffer (R42). -/
theorem RxByteRule.pb_wf {c : Config} {b : Byte} {r r' : Rx} (h : RxByteRule c b r r')
    (hw : r.pb.wf c = true) : r'.pb.wf c = true := by
  by_cases hs : r.rxState = .waitPayload
  · rw [← rxByteStep_eq_some_iff, rxByteStep, hs] at h
    cases h
    exact wf_store c r b hw
  · rw [h.pb_eq hs]; exact hw

/-- `rx_done` comes with `Complete` alone (R21). -/
theorem RxByteRule.complete_of_rxDone {c : Config} {b : Byte} {r r' : Rx} (h : RxByteRule c b r r')
    (hd : r.rxDone = false) (hd' : r'.rxDone = true) : r'.rxState = .complete := by
  by_cases hs : r.rxState = .waitChecksumB
  · rw [← rxByteStep_eq_some_iff, rxByteStep, hs] at h
    cases h
    rfl
  · rw [h.rxDone_eq hs, hd] at hd'
    cases hd'

/-! ### The record -/

/-- A cleared record is an unjudged one. -/
theorem Rx.Cleared.unjudged {r : Rx} (h : r.Cleared) : r.Unjudged := by
  obtain ⟨-, -, -, -, -, -, -, hB, hv, hm, ho⟩ := (clearFrame_eq_self_iff r).1 h
  exact ⟨hv, hm, ho, hB⟩

/-- Neither `rx_state` nor the completion pulse is part of the record that ClearFrame clears (R101). -/
theorem cleared_with_iff (r : Rx) (x : RxState) (d : Bool) :
    Rx.Cleared { r with rxState := x, rxDone := d } ↔ r.Cleared := by
  simp only [Rx.Cleared, clearFrame_eq_self_iff]

/-- The completion pulse is no part of what `rx_state` says of the record. -/
theorem Rx.RecordFits.clearDone {c : Config} {r : Rx} (h : r.RecordFits c) :
    Rx.RecordFits c { r with rxDone := false } := by
  simp only [Rx.RecordFits, Rx.Cleared, clearFrame_eq_self_iff] at h ⊢
  exact h

theorem validityAtCompletion_ne_notDefined (r : Rx) (b : Byte) : validityAtCompletion r b ≠ .notDefined := by
  unfold validityAtCompletion; split <;> simp

/-- Wherever the framer scans for sync, the record is cleared or that of the last completed frame (R111, R203). -/
theorem Rx.RecordFits.scanning {c : Config} {r : Rx} (h : r.RecordFits c)
    (hs : r.rxState ∈ [RxState.waitSync1, .waitSync2, .complete]) : r.Cleared ∨ r.Judged c := by
  simp only [List.mem_cons, List.not_mem_nil, or_false] at hs
  obtain hs | hs | hs := hs <;> simp only [Rx.RecordFits, hs] at h
  · exact h
  · exact h
  · exact .inr h

/-- A frame has at most its `pkt_len + 6` bytes, and inside it the last is still to come (R113). -/
theorem Rx.RecordFits.byteCounter_le {c : Config} {r : Rx} (h : r.RecordFits c) :
    r.byteCounter.toNat ≤ r.pktLen.toNat + 6 ∧
      (inFrame r = true → r.byteCounter.toNat < r.pktLen.toNat + 6) := by
  have done : r.Cleared ∨ r.Judged c → r.byteCounter.toNat ≤ r.pktLen.toNat + 6 := by
    rintro (hc | hj)
    · obtain ⟨-, -, -, hcnt, -⟩ := (clearFrame_eq_self_iff r).1 hc
      simp [hcnt]
    · exact hj.1.le
  cases hs : r.rxState <;> simp only [Rx.RecordFits, hs] at h
  case waitSync1 | waitSync2 => exact ⟨done h, by simp [inFrame, hs]⟩
  case complete => exact ⟨done (.inr h), by simp [inFrame, hs]⟩
  case waitClass =>
    obtain ⟨-, -, -, hcnt, -⟩ := (clearFrame_eq_self_iff r).1 h
    simp [hcnt]
  case waitId | waitLen1 | waitLen2 =>
    obtain ⟨-, hcnt, -⟩ := h
    have hval : r.byteCounter.toNat ≤ 3 := by rw [hcnt]; decide
    omega
  case waitPayload | waitChecksumA | waitChecksumB => omega

/-- Inside a frame RX_BYTE adds 1 to the counter as a number: it does not wrap (R15). -/
theorem RxByteRule.byteCounter_toNat {c : Config} {b : Byte} {r r' : Rx} (h : RxByteRule c b r r')
    (hr : r.RecordFits c) (hf : inFrame r = true) : r'.byteCounter.toNat = r.byteCounter.toNat + 1 := by
  have hlt := hr.byteCounter_le.2 hf
  have hlen := r.pktLen.isLt
  rw [h.byteCounter_succ hf, byteCount_succ_toNat (by omega)]

/-- RX_BYTE keeps what `rx_state` says of the record. -/
theorem RxByteRule.recordFits {c : Config} {b : Byte} {r r' : Rx} (h : RxByteRule c b r r')
    (hr : r.RecordFits c) : r'.RecordFits c := by
  have hcnt := h.byteCounter_toNat hr
  cases h with
  | scan hs =>
    have hrec := hr.scanning (by obtain hs | hs := hs <;> simp [hs])
    unfold rxScanSync1
    split
    · exact hrec.imp_left (cleared_with_iff r _ _).2
    · exact hrec.imp_left (cleared_with_iff r _ _).2
  | sync2Accepted => rfl
  | sync2Missed hs => exact (hr.scanning (by simp [hs])).imp_left (cleared_with_iff r _ _).2
  | waitClass hs =>
    simp only [Rx.RecordFits, hs] at hr
    obtain ⟨-, -, hlen, hzero, hA, hB, -⟩ := (clearFrame_eq_self_iff r).1 hr
    have hu : r.Unjudged := Rx.Cleared.unjudged hr
    refine ⟨hu, ?_, hlen, ?_⟩
    · simp [rxInWaitClass, hzero]
    · simp [rxInWaitClass, hA, hB, compute]
  | waitId hs =>
    simp only [Rx.RecordFits, hs] at hr
    obtain ⟨hu, hone, hlen, hacc⟩ := hr
    refine ⟨hu, ?_, hlen, ?_⟩
    · simp only [rxInWaitId, coverByte_byteCounter, hone]; decide
    · simp [rxInWaitId, hacc, compute]
  | waitLen1 hs =>
    simp only [Rx.RecordFits, hs] at hr
    obtain ⟨hu, htwo, hlen, hacc⟩ := hr
    refine ⟨hu, ?_, ?_, ?_⟩
    · simp only [rxInWaitLen1, coverByte_byteCounter, htwo]; decide
    · simp only [rxInWaitLen1, highByte_lenWithLow, hlen]; decide
    · simp [rxInWaitLen1, lowByte_lenWithLow, hacc, compute]
  | waitLen2 hs =>
    simp only [Rx.RecordFits, hs] at hr
    obtain ⟨hu, hthree, -, -⟩ := hr
    have hfour : (coverByte b r).byteCounter.toNat = 4 := by rw [coverByte_byteCounter, hthree]; decide
    unfold rxInWaitLen2
    split
    · rename_i h0
      exact ⟨hu, by simp only [hfour, h0]; rfl⟩
    · rename_i h0
      have hpos : (lenWithHigh r.pktLen b).toNat ≠ 0 := fun e => h0 (BitVec.eq_of_toNat_eq e)
      exact ⟨hu, hfour.ge, by simp only [hfour]; omega⟩
  | waitPayload hs =>
    simp only [Rx.RecordFits, hs] at hr
    obtain ⟨hu, hge, hlt⟩ := hr
    have hsucc : (coverByte b r).byteCounter.toNat = r.byteCounter.toNat + 1 := hcnt (by simp [inFrame, hs])
    unfold rxInWaitPayload payloadIndex
    split
    · exact ⟨hu, show (coverByte b r).byteCounter.toNat = r.pktLen.toNat + 4 by omega⟩
    · exact ⟨hu, show 4 ≤ (coverByte b r).byteCounter.toNat by omega,
        show (coverByte b r).byteCounter.toNat < r.pktLen.toNat + 4 by omega⟩
  | waitChecksumA hs =>
    simp only [Rx.RecordFits, hs] at hr
    obtain ⟨hu, hfour⟩ := hr
    exact ⟨hu, (hcnt (by simp [inFrame, hs])).trans (by rw [hfour]; rfl)⟩
  | waitChecksumB hs =>
    simp only [Rx.RecordFits, hs] at hr
    obtain ⟨-, hfive⟩ := hr
    exact ⟨(hcnt (by simp [inFrame, hs])).trans (by rw [hfive]; rfl), rfl, rfl, rfl⟩

end Sys2Proof.Machine

/-! What TX_START and TX_STEP can do, rule by rule, and the invariant of the transmit side (spec/10_state.md R27, R28,
R32; spec/44_tx_framer.md R160 to R171). -/

namespace Sys2Proof.Machine

/-! ### TX_START -/

theorem txStartStep_of_gt {c : Config} {len : Half} (cls id : Byte) (t : Tx) (h : c.cap < len.toNat) :
    txStartStep c cls id len t = { t with txInvalidArg := true, txState := .txIdle } := if_pos h

theorem txStartStep_of_le {c : Config} {len : Half} (cls id : Byte) (t : Tx) (h : len.toNat ≤ c.cap) :
    txStartStep c cls id len t = { t with
      txInvalidArg := false, txClass := cls, txId := id, txLen := len, txCount := 0
      txAccA := 0x00, txAccB := 0x00, txState := .txSync1 } := if_neg (Nat.not_lt.2 h)

/-- TX_START emits nothing: the output and `tx_done` stay (R160). -/
theorem txStartStep_output (c : Config) (cls id : Byte) (len : Half) (t : Tx) :
    (txStartStep c cls id len t).txOutValid = t.txOutValid ∧
    (txStartStep c cls id len t).txOutData = t.txOutData ∧
    (txStartStep c cls id len t).txDone = t.txDone := by
  unfold txStartStep
  split <;> exact ⟨rfl, rfl, rfl⟩

/-! ### TX_STEP -/

/-- The rules of TX_STEP: `TxStepRule c p t t'` says that a rule takes the transmit side `t` to `t'` with the payload
byte `p` at the input. -/
inductive TxStepRule (c : Config) (p : Byte) (t : Tx) : Tx → Prop
  | txIdle (hs : t.txState = .txIdle) : TxStepRule c p t t
  | txSync1 (hs : t.txState = .txSync1) : TxStepRule c p t { emit c.sync1 t with txState := .txSync2 }
  | txSync2 (hs : t.txState = .txSync2) : TxStepRule c p t { emit c.sync2 t with txState := .txClass }
  | txClass (hs : t.txState = .txClass) : TxStepRule c p t { emitCovered t.txClass t with txState := .txId }
  | txId (hs : t.txState = .txId) : TxStepRule c p t { emitCovered t.txId t with txState := .txLenL }
  | txLenL (hs : t.txState = .txLenL) :
      TxStepRule c p t { emitCovered (lowByte t.txLen) t with txState := .txLenH }
  | txLenHEmpty (hs : t.txState = .txLenH) (h0 : t.txLen = 0) :
      TxStepRule c p t { emitCovered (highByte t.txLen) t with txState := .txCkA }
  | txLenHPayload (hs : t.txState = .txLenH) (h0 : t.txLen ≠ 0) :
      TxStepRule c p t { emitCovered (highByte t.txLen) t with txState := .txPayload }
  | txPayload (hs : t.txState = .txPayload) : TxStepRule c p t (txInTxPayload p t)
  | txCkA (hs : t.txState = .txCkA) : TxStepRule c p t { emit t.txAccA t with txState := .txCkB }
  | txCkB (hs : t.txState = .txCkB) : TxStepRule c p t { emit t.txAccB t with txDone := true, txState := .txIdle }

/-- The rules are TX_STEP: it answers exactly what one of them gives. -/
theorem txStepStep_eq_some_iff {c : Config} {p : Byte} {t t' : Tx} :
    txStepStep c p t = some t' ↔ TxStepRule c p t t' := by
  constructor
  · intro h
    unfold txStepStep at h
    split at h <;> cases h
    case h_1 hs => exact .txIdle hs
    case h_2 hs => exact .txSync1 hs
    case h_3 hs => exact .txSync2 hs
    case h_4 hs => exact .txClass hs
    case h_5 hs => exact .txId hs
    case h_6 hs => exact .txLenL hs
    case h_7 hs =>
      split
      · exact .txLenHEmpty hs ‹_›
      · exact .txLenHPayload hs ‹_›
    case h_8 hs => exact .txPayload hs
    case h_9 hs => exact .txCkA hs
    case h_10 hs => exact .txCkB hs
  · intro h
    cases h with
    | txLenHEmpty hs h0 => simp only [txStepStep, hs, if_pos h0]
    | txLenHPayload hs h0 => simp only [txStepStep, hs, if_neg h0]
    | txIdle hs | txSync1 hs | txSync2 hs | txClass hs | txId hs | txLenL hs | txPayload hs | txCkA hs
    | txCkB hs => simp only [txStepStep, hs]

section Frame

variable {c : Config} {p : Byte} {t t' : Tx}

/-- TX_STEP writes none of what TX_START loads (R26, R27, R30). -/
theorem TxStepRule.args_eq (h : TxStepRule c p t t') : t'.txClass = t.txClass ∧ t'.txId = t.txId ∧
    t'.txLen = t.txLen ∧ t'.txInvalidArg = t.txInvalidArg := by
  cases h <;> exact ⟨rfl, rfl, rfl, rfl⟩

theorem TxStepRule.txCount_eq (h : TxStepRule c p t t') (hs : t.txState ≠ .txPayload) :
    t'.txCount = t.txCount := by
  cases h
  case txPayload hp => exact absurd hp hs
  all_goals rfl

theorem TxStepRule.txAcc_eq (h : TxStepRule c p t t')
    (hs : t.txState ∉ [TxState.txClass, .txId, .txLenL, .txLenH, .txPayload]) :
    t'.txAccA = t.txAccA ∧ t'.txAccB = t.txAccB := by
  cases h
  case txClass hc | txId hc | txLenL hc | txPayload hc => simp [hc] at hs
  case txLenHEmpty hc _ | txLenHPayload hc _ => simp [hc] at hs
  all_goals exact ⟨rfl, rfl⟩

theorem TxStepRule.txDone_eq (h : TxStepRule c p t t') (hs : t.txState ≠ .txCkB) : t'.txDone = t.txDone := by
  cases h
  case txCkB hB => exact absurd hB hs
  all_goals rfl

theorem TxStepRule.eq_of_txIdle (h : TxStepRule c p t t') (hs : t.txState = .txIdle) : t' = t := by
  rw [← txStepStep_eq_some_iff, txStepStep, hs] at h
  cases h
  rfl

/-! ### The invariant of the transmit side -/

/-- A valid TX_START begins a frame whose length fits; a refused one keeps the old frame registers (R160). -/
theorem Tx.Inv.after_txStart (ht : t.Inv c) (cls id : Byte) (len : Half) (hd : t.txDone = false) :
    (txStartStep c cls id len t).Inv c := by
  obtain ⟨-, hlen, hcnt, -⟩ := ht
  rcases Nat.lt_or_ge c.cap len.toNat with hgt | hle
  · rw [txStartStep_of_gt cls id t hgt]
    exact ⟨trivial, hlen, hcnt, fun e => by simp [hd] at e⟩
  · rw [txStartStep_of_le cls id t hle]
    exact ⟨⟨rfl, rfl⟩, hle, Nat.zero_le _, fun e => by simp [hd] at e⟩

/-- The payload step counts its byte as a number, since the count is below the length (R28, R169). -/
theorem txCount_succ_toNat (h : t.txCount.toNat < t.txLen.toNat) :
    (t.txCount + 1).toNat = t.txCount.toNat + 1 := by
  have := t.txLen.isLt
  rw [BitVec.toNat_add, show (1 : Half).toNat = 1 from rfl]
  omega

/-- TX_STEP keeps what `tx_state` says of the transmit registers, and the count within the length. -/
theorem TxStepRule.frameFits (h : TxStepRule c p t t') (ht : t.FrameFits)
    (hcnt : t.txCount.toNat ≤ t.txLen.toNat) : t'.FrameFits ∧ t'.txCount.toNat ≤ t'.txLen.toNat := by
  cases h with
  | txIdle hs => exact ⟨ht, hcnt⟩
  | txSync1 hs | txSync2 hs =>
    simp only [Tx.FrameFits, hs] at ht
    exact ⟨ht, hcnt⟩
  | txClass hs | txId hs | txLenL hs =>
    simp only [Tx.FrameFits, hs] at ht
    obtain ⟨hzero, hacc⟩ := ht
    exact ⟨⟨hzero, by simp [hacc, compute]⟩, hcnt⟩
  | txLenHEmpty hs h0 =>
    simp only [Tx.FrameFits, hs] at ht
    obtain ⟨hzero, -⟩ := ht
    exact ⟨hzero.trans h0.symm, hcnt⟩
  | txLenHPayload hs h0 =>
    simp only [Tx.FrameFits, hs] at ht
    obtain ⟨hzero, -⟩ := ht
    refine ⟨?_, hcnt⟩
    show t.txCount.toNat < t.txLen.toNat
    have hpos : t.txLen.toNat ≠ 0 := fun e => h0 (BitVec.eq_of_toNat_eq e)
    rw [hzero]
    exact Nat.pos_of_ne_zero hpos
  | txPayload hs =>
    simp only [Tx.FrameFits, hs] at ht
    have hsucc := txCount_succ_toNat ht
    unfold txInTxPayload
    split
    · rename_i hlast
      exact ⟨BitVec.eq_of_toNat_eq (hsucc.trans hlast), (hsucc.trans hlast).le⟩
    · exact ⟨show (t.txCount + 1).toNat < t.txLen.toNat by omega,
        show (t.txCount + 1).toNat ≤ t.txLen.toNat by omega⟩
  | txCkA hs =>
    simp only [Tx.FrameFits, hs] at ht
    exact ⟨ht, hcnt⟩
  | txCkB hs => exact ⟨trivial, hcnt⟩

/-- `tx_done` comes with the emitted checksum B alone (R32, R171). -/
theorem TxStepRule.idle_of_txDone (h : TxStepRule c p t t') (hd : t.txDone = false) (hd' : t'.txDone = true) :
    t'.txState = .txIdle ∧ t'.txOutValid = true := by
  by_cases hs : t.txState = .txCkB
  · rw [← txStepStep_eq_some_iff, txStepStep, hs] at h
    cases h
    exact ⟨rfl, rfl⟩
  · rw [h.txDone_eq hs, hd] at hd'
    cases hd'

theorem TxStepRule.inv (h : TxStepRule c p t t') (ht : t.Inv c) (hd : t.txDone = false) : t'.Inv c := by
  obtain ⟨hfits, hlen, hcnt, -⟩ := ht
  obtain ⟨-, -, hlen', -⟩ := h.args_eq
  obtain ⟨hfits', hcnt'⟩ := h.frameFits hfits hcnt
  exact ⟨hfits', hlen' ▸ hlen, hcnt', h.idle_of_txDone hd⟩

end Frame

end Sys2Proof.Machine

/-! Each side across a cycle without RESET: what stands at the turn of RX_BYTE and of TX_STEP, and the invariant
(spec/43_control.md R143, R144). -/

namespace Sys2Proof.Machine

/-! ### The receive side -/

/-- The receive side at the turn of RX_BYTE: the pulse cleared, an ARM of the cycle done (R143). -/
def rxArmed (f : InFields) (r : Rx) : Rx :=
  if f.arm then armStep f.armClass f.armId f.armSpot { r with rxDone := false } else { r with rxDone := false }

theorem rxArmed_of_arm {f : InFields} (h : f.arm = true) (r : Rx) :
    rxArmed f r = armStep f.armClass f.armId f.armSpot { r with rxDone := false } := if_pos h

theorem rxArmed_of_not_arm {f : InFields} (h : f.arm = false) (r : Rx) :
    rxArmed f r = { r with rxDone := false } := by simp [rxArmed, h]

@[simp] theorem rxArmed_rxDone (f : InFields) (r : Rx) : (rxArmed f r).rxDone = false := by
  unfold rxArmed; split <;> rfl

/-- A cycle takes a byte by a rule of RX_BYTE, or takes none. -/
theorem rxCycle_cases {f : InFields} {r r' : Rx} (h : rxCycle f r = some r') :
    (f.rxValid = false ∧ r' = rxArmed f r) ∨
      (f.rxValid = true ∧ RxByteRule Config.machine f.rxData (rxArmed f r) r') := by
  change (if f.rxValid then rxByteStep Config.machine f.rxData (rxArmed f r)
    else some (rxArmed f r)) = some r' at h
  cases hv : f.rxValid <;> simp only [hv] at h
  · exact .inl ⟨rfl, (Option.some.inj h).symm⟩
  · exact .inr ⟨rfl, rxByteStep_eq_some_iff.1 h⟩

theorem Rx.reset_inv : Rx.reset.Inv Config.machine := ⟨.inl rfl, rfl, by decide, by decide⟩

theorem Rx.Inv.rxArmed {r : Rx} (h : r.Inv Config.machine) (f : InFields) :
    (rxArmed f r).Inv Config.machine := by
  obtain ⟨hfits, hpb, hv, -⟩ := h
  cases ha : f.arm
  · rw [rxArmed_of_not_arm ha]
    exact ⟨hfits.clearDone, hpb, hv, by simp⟩
  · rw [rxArmed_of_arm ha]
    exact ⟨.inl rfl, hpb, by simp, by simp⟩

theorem RxByteRule.inv {c : Config} {b : Byte} {r r' : Rx} (h : RxByteRule c b r r') (hr : r.Inv c)
    (hd : r.rxDone = false) : r'.Inv c := by
  obtain ⟨hfits, hpb, hv, -⟩ := hr
  exact ⟨h.recordFits hfits, h.pb_wf hpb, (rxByteStep_not_reserved (rxByteStep_eq_some_iff.2 h) hv).2,
    h.complete_of_rxDone hd⟩

theorem rxCycle_keeps_inv {f : InFields} {r r' : Rx} (h : rxCycle f r = some r')
    (hr : r.Inv Config.machine) : r'.Inv Config.machine := by
  rcases rxCycle_cases h with ⟨-, rfl⟩ | ⟨-, hb⟩
  · exact hr.rxArmed f
  · exact hb.inv (hr.rxArmed f) (rxArmed_rxDone f r)

/-! ### The transmit side -/

/-- The transmit side at the turn of TX_STEP: the pulses cleared, a TX_START of the cycle done (R143). -/
def txStarted (f : InFields) (t : Tx) : Tx :=
  if f.txStart then
    txStartStep Config.machine f.txClass f.txId f.txLen { t with txDone := false, txOutValid := false }
  else { t with txDone := false, txOutValid := false }

theorem txStarted_of_txStart {f : InFields} (h : f.txStart = true) (t : Tx) : txStarted f t =
    txStartStep Config.machine f.txClass f.txId f.txLen { t with txDone := false, txOutValid := false } :=
  if_pos h

theorem txStarted_of_not_txStart {f : InFields} (h : f.txStart = false) (t : Tx) :
    txStarted f t = { t with txDone := false, txOutValid := false } := by simp [txStarted, h]

theorem txStarted_txDone (f : InFields) (t : Tx) : (txStarted f t).txDone = false := by
  unfold txStarted
  split
  · exact (txStartStep_output _ _ _ _ _).2.2
  · rfl

/-- A cycle steps by a rule of TX_STEP, or does not step. -/
theorem txCycle_cases {f : InFields} {t t' : Tx} (h : txCycle f t = some t') :
    (f.txStep = false ∧ t' = txStarted f t) ∨
      (f.txStep = true ∧ TxStepRule Config.machine f.txPay (txStarted f t) t') := by
  change (if f.txStep then txStepStep Config.machine f.txPay (txStarted f t)
    else some (txStarted f t)) = some t' at h
  cases hp : f.txStep <;> simp only [hp] at h
  · exact .inl ⟨rfl, (Option.some.inj h).symm⟩
  · exact .inr ⟨rfl, txStepStep_eq_some_iff.1 h⟩

theorem Tx.reset_inv : Tx.reset.Inv Config.machine := ⟨trivial, by decide, by decide, by decide⟩

theorem Tx.Inv.txStarted {t : Tx} (h : t.Inv Config.machine) (f : InFields) :
    (txStarted f t).Inv Config.machine := by
  have hclear : Tx.Inv Config.machine { t with txDone := false, txOutValid := false } := by
    obtain ⟨hfits, hlen, hcnt, -⟩ := h
    exact ⟨hfits, hlen, hcnt, by simp⟩
  cases hs : f.txStart
  · rw [txStarted_of_not_txStart hs]; exact hclear
  · rw [txStarted_of_txStart hs]; exact hclear.after_txStart _ _ _ rfl

theorem txCycle_keeps_inv {f : InFields} {t t' : Tx} (h : txCycle f t = some t')
    (ht : t.Inv Config.machine) : t'.Inv Config.machine := by
  rcases txCycle_cases h with ⟨-, rfl⟩ | ⟨-, hp⟩
  · exact ht.txStarted f
  · exact hp.inv (ht.txStarted f) (txStarted_txDone f t)

/-! ### The whole state -/

theorem cycle_keeps_inv {r : InRecord} {s t : State} (h : cycle r s = .next t) (hs : s.Inv) : t.Inv := by
  obtain ⟨-, hreset, hrun⟩ := cycle_next_sides h
  cases hr : (unpackIn r.word).rst
  · obtain ⟨hrx, htx⟩ := hrun hr
    exact ⟨rxCycle_keeps_inv hrx hs.1, txCycle_keeps_inv htx hs.2⟩
  · obtain ⟨hrx, htx⟩ := hreset hr
    exact ⟨hrx ▸ Rx.reset_inv, htx ▸ Tx.reset_inv⟩

/-- Settles O44: a step is a cycle on the state once its record is sampled, which moves on the host side alone. -/
theorem stepKeepsTheInvariant : Obligations.StepKeepsTheInvariant := by
  intro s t hs h
  exact cycle_keeps_inv (s := s.consumeInput) h hs

end Sys2Proof.Machine

/-! What the operations leave unchanged, the counter, the verdict, the loaded arguments and the derived outputs
(spec/10_state.md R15, R22 to R35). -/

namespace Sys2Proof.Machine

/-! ### One operation that answers a next state -/

section Exec

variable {s t : State}

theorem exec_reset_next (h : exec .reset s = .next t) : t = { s with rx := Rx.reset, tx := Tx.reset } := by
  simpa using (exec_next_cases h).2

theorem exec_arm_next {cls id : Byte} {spot : Half} (h : exec (.arm cls id spot) s = .next t) :
    t = { s with rx := armStep cls id spot s.rx } := by
  simpa using (exec_next_cases h).2

theorem exec_rxByte_next {b : Byte} (h : exec (.rxByte b) s = .next t) :
    ∃ r, RxByteRule Config.machine b s.rx r ∧ t = { s with rx := r } := by
  simpa [rxByteStep_eq_some_iff] using (exec_next_cases h).2

theorem exec_txStart_next {cls id : Byte} {len : Half} (h : exec (.txStart cls id len) s = .next t) :
    t = { s with tx := txStartStep Config.machine cls id len s.tx } := by
  simpa using (exec_next_cases h).2

theorem exec_txStep_next {p : Byte} (h : exec (.txStep p) s = .next t) :
    ∃ u, TxStepRule Config.machine p s.tx u ∧ t = { s with tx := u } := by
  simpa [txStepStep_eq_some_iff] using (exec_next_cases h).2

theorem exec_idle_next (h : exec .idle s = .next t) : t = clearPulses s := by
  simpa using (exec_next_cases h).2

theorem exec_readPayload_next {a : RdAddr} (h : exec (.readPayload a) s = .next t) :
    ∃ v, t = { s with host := { s.host with rdData := some v } } := by
  obtain ⟨-, v, -, ht⟩ : a.toNat < Config.machine.cap ∧ ∃ v, s.rx.pb.read? a.toNat = some v ∧
      t = { s with host := { s.host with rdData := some v } } := by
    simpa using (exec_next_cases h).2
  exact ⟨v, ht⟩

theorem exec_readStatus_next (h : exec .readStatus s = .next t) :
    t = { s with host := { s.host with status := some (statusOutputs s) } } := by
  simpa using (exec_next_cases h).2

end Exec

/-! ### Frames -/

/-- Settles O28: register by register, from the rules of RX_BYTE. -/
theorem rxByteFrame : Obligations.RxByteFrame := by
  intro b s t h
  obtain ⟨r, hr, rfl⟩ := exec_rxByte_next h
  obtain ⟨hcls, hid, hvalid, hspot⟩ := hr.request_eq
  refine ⟨rfl, rfl, hcls, hid, hvalid, hspot, fun hs a => by rw [hr.pb_eq hs],
    fun hs a ha => hr.read?_pb_eq hs ha, fun hn => ?_, hr.rxDone_eq⟩
  exact ⟨hr.pktClass_eq hn, hr.pktId_eq hn, hr.pktLen_eq hn, hr.ckAcc_eq hn, hr.byteCounter_eq hn,
    hr.ckRxA_eq hn, hr.verdict_eq hn⟩

/-- Settles O29: each operation replaces the transmit side alone, and the rules of TX_STEP say what of it stays. -/
theorem txOperationsFrame : Obligations.TxOperationsFrame := by
  constructor
  · intro cls id len s t h
    obtain rfl := exec_txStart_next h
    obtain ⟨hvalid, hdata, hdone⟩ := txStartStep_output Config.machine cls id len s.tx
    refine ⟨rfl, rfl, fun _ => rfl, hvalid, hdata, hdone, fun hgt => ?_⟩
    simp [txStartStep_of_gt cls id s.tx hgt]
  · intro p s t h
    obtain ⟨u, hu, rfl⟩ := exec_txStep_next h
    obtain ⟨hcls, hid, hlen, harg⟩ := hu.args_eq
    exact ⟨rfl, rfl, fun _ => rfl, hcls, hid, hlen, harg, hu.txCount_eq, hu.txAcc_eq, hu.txDone_eq,
      fun hs => by rw [hu.eq_of_txIdle hs]⟩

/-- Settles O30: each next state is the operation's own update, which names none of the parts that stay. -/
theorem controlAndReadFrame : Obligations.ControlAndReadFrame := by
  refine ⟨fun cls id spot s t h => ?_, fun s t h => ?_, fun a s t h => ?_, fun s t h => ?_, fun s t h => ?_⟩
  · obtain rfl := exec_arm_next h
    exact ⟨rfl, rfl, rfl, fun _ => rfl⟩
  · obtain rfl := exec_idle_next h
    exact ⟨rfl, rfl, rfl, fun _ => rfl⟩
  · obtain ⟨v, rfl⟩ := exec_readPayload_next h
    exact ⟨rfl, rfl, rfl, rfl, rfl, fun _ => rfl⟩
  · obtain rfl := exec_readStatus_next h
    exact ⟨rfl, rfl, rfl, rfl, rfl, fun _ => rfl⟩
  · obtain rfl := exec_reset_next h
    rfl

/-! ### The counter -/

/-- The invariant leaves no room for a reserved code. -/
theorem State.Inv.legal {s : State} (h : s.Inv) : s.legal = true := by
  obtain ⟨⟨hrx, -, hv, -⟩, htx, -⟩ := h
  refine (legal_iff s).2 ⟨fun k hk => ?_, fun k hk => ?_, hv⟩
  · simp only [Rx.RecordFits, hk] at hrx
  · simp only [Tx.FrameFits, hk] at htx

/-- Settles O45: the counter is at most `pkt_len + 6`, which fits its width, and a byte inside a frame finds it
below that. -/
theorem byteCounterNeverWraps : Obligations.ByteCounterNeverWraps := by
  intro s hs
  have hfits : s.rx.RecordFits Config.machine := hs.1.1
  have hlen := s.rx.pktLen.isLt
  have hle := hfits.byteCounter_le.1
  refine ⟨by omega, fun hc => ?_, fun hp => ?_, fun b => ?_⟩
  · simp only [Rx.RecordFits, hc] at hfits
    exact hfits.1
  · simp only [Rx.RecordFits, hp] at hfits
    obtain ⟨-, hge, hlt⟩ := hfits
    exact ⟨hge, by omega⟩
  · obtain ⟨r, hr, hexec⟩ := execRxByte_of_legal b hs.legal
    exact ⟨_, hexec, (rxByteStep_eq_some_iff.1 hr).byteCounter_toNat hfits⟩

/-! ### The verdict -/

/-- What a cycle makes of the verdict (R34): the record is cleared, the verdict stays, or the cycle completes the
frame. -/
inductive VerdictStep (r r' : Rx) : Prop
  | cleared (hc : r'.Cleared) (hd : r'.rxDone = false)
  | kept (hv : r'.validity = r.validity) (hm : r'.matchReg = r.matchReg)
      (ho : r'.overwritten = r.overwritten) (hB : r'.ckRxB = r.ckRxB) (hd : r'.rxDone = false)
  | written (hs : r.rxState = .waitChecksumB) (hv : r'.validity ≠ .notDefined) (hs' : r'.rxState = .complete)
      (hd : r'.rxDone = true)

theorem RxByteRule.verdictStep {c : Config} {b : Byte} {r r' : Rx} (h : RxByteRule c b r r')
    (hd : r.rxDone = false) : VerdictStep r r' := by
  cases h
  case sync2Accepted => exact .cleared rfl hd
  case waitChecksumB hs => exact .written hs (validityAtCompletion_ne_notDefined r b) rfl rfl
  all_goals exact .kept rfl rfl rfl rfl hd

/-- A cycle with an ARM leaves a cleared record: the re-armed framer scans for sync (R135, R141). -/
theorem RxByteRule.cleared_of_scan {c : Config} {b : Byte} {r r' : Rx} (h : RxByteRule c b r r')
    (hs : r.rxState = .waitSync1) (hc : r.Cleared) : r'.Cleared := by
  rw [← rxByteStep_eq_some_iff, rxByteStep, hs] at h
  cases h
  exact (cleared_with_iff r _ _).2 hc

theorem rxCycle_verdictStep {f : InFields} {r r' : Rx} (h : rxCycle f r = some r') : VerdictStep r r' := by
  cases ha : f.arm
  · rcases rxCycle_cases h with ⟨-, rfl⟩ | ⟨-, hb⟩
    · rw [rxArmed_of_not_arm ha]
      exact .kept rfl rfl rfl rfl rfl
    · rw [rxArmed_of_not_arm ha] at hb
      obtain ⟨hc, hd⟩ | ⟨hv, hm, ho, hB, hd⟩ | ⟨hs, hv, hs', hd⟩ := hb.verdictStep rfl
      · exact .cleared hc hd
      · exact .kept hv hm ho hB hd
      · exact .written hs hv hs' hd
  · have harmed : (rxArmed f r).Cleared := by rw [rxArmed_of_arm ha]; rfl
    have hscan : (rxArmed f r).rxState = .waitSync1 := by rw [rxArmed_of_arm ha]; rfl
    rcases rxCycle_cases h with ⟨-, rfl⟩ | ⟨-, hb⟩
    · exact .cleared harmed (rxArmed_rxDone f r)
    · exact .cleared (hb.cleared_of_scan hscan harmed)
        ((hb.rxDone_eq (by simp [hscan])).trans (rxArmed_rxDone f r))

theorem cycle_verdictStep {r : InRecord} {s t : State} (h : cycle r s = .next t) : VerdictStep s.rx t.rx := by
  obtain ⟨-, hreset, hrun⟩ := cycle_next_sides h
  cases hr : (unpackIn r.word).rst
  · exact rxCycle_verdictStep (hrun hr).1
  · rw [(hreset hr).1]
    exact .cleared rfl rfl

/-- A record without a verdict has no flag and no checksum B (R34). -/
theorem Rx.RecordFits.unjudged {c : Config} {r : Rx} (h : r.RecordFits c) (hv : r.validity = .notDefined) :
    r.Unjudged := by
  have done : r.Cleared ∨ r.Judged c → r.Unjudged := by
    rintro (hc | ⟨-, hj, -⟩)
    · exact hc.unjudged
    · exact absurd (hj.symm.trans hv) (validityAtCompletion_ne_notDefined r r.ckRxB)
  cases hs : r.rxState <;> simp only [Rx.RecordFits, hs] at h
  case waitSync1 | waitSync2 => exact done h
  case waitClass => exact done (.inl h)
  case complete => exact done (.inr h)
  all_goals exact h.1

/-- Settles O46: of the three things a cycle can make of a verdict, each clause leaves one. -/
theorem verdictIsSetOncePerFrame : Obligations.VerdictIsSetOncePerFrame := by
  intro r s t hs h
  have hfits : s.rx.RecordFits Config.machine := hs.1.1
  cases cycle_verdictStep h with
  | cleared hc hd =>
    obtain ⟨hv, hm, ho, hB⟩ := hc.unjudged
    exact ⟨fun _ => .inr hc, fun _ hn => absurd hv hn, fun _ _ => ⟨hm, ho, hB, hd⟩⟩
  | kept hv hm ho hB hd =>
    refine ⟨fun _ => .inl ⟨hv, hm, ho, hB, hd⟩, fun h0 hn => absurd (hv.trans h0) hn, fun h0 _ => ?_⟩
    obtain ⟨-, hm0, ho0, hB0⟩ := hfits.unjudged h0
    exact ⟨hm.trans hm0, ho.trans ho0, hB.trans hB0, hd⟩
  | written hB hv hs' hd =>
    simp only [Rx.RecordFits, hB] at hfits
    obtain ⟨⟨h0, -⟩, -⟩ := hfits
    exact ⟨fun hn => absurd h0 hn, fun _ _ => ⟨hB, hs', hd⟩, fun _ h0' => absurd h0' hv⟩

/-! ### The arguments -/

/-- At the turn of TX_STEP, `tx_invalid_arg` says whether the length of the TX_START exceeds `CAP`, and a valid one has
loaded its arguments (R160). -/
theorem txStarted_args_of_txStart {f : InFields} (hs : f.txStart = true) (t : Tx) :
    ((txStarted f t).txInvalidArg = true ↔ Config.machine.cap < f.txLen.toNat) ∧
    (f.txLen.toNat ≤ Config.machine.cap → (txStarted f t).txClass = f.txClass ∧
      (txStarted f t).txId = f.txId ∧ (txStarted f t).txLen = f.txLen) ∧
    (Config.machine.cap < f.txLen.toNat → (txStarted f t).txClass = t.txClass ∧
      (txStarted f t).txId = t.txId ∧ (txStarted f t).txLen = t.txLen) := by
  rw [txStarted_of_txStart hs]
  rcases Nat.lt_or_ge Config.machine.cap f.txLen.toNat with hgt | hle
  · rw [txStartStep_of_gt _ _ _ hgt]
    exact ⟨⟨fun _ => hgt, fun _ => rfl⟩, fun hle => absurd hgt (Nat.not_lt.2 hle), fun _ => ⟨rfl, rfl, rfl⟩⟩
  · rw [txStartStep_of_le _ _ _ hle]
    exact ⟨⟨nofun, fun hgt => absurd hgt (Nat.not_lt.2 hle)⟩, fun _ => ⟨rfl, rfl, rfl⟩,
      fun hgt => absurd hgt (Nat.not_lt.2 hle)⟩

/-- After a cycle the request and the starting spot are those at the turn of RX_BYTE. -/
theorem rxCycle_request {f : InFields} {r r' : Rx} (h : rxCycle f r = some r') :
    r'.reqClass = (rxArmed f r).reqClass ∧ r'.reqId = (rxArmed f r).reqId ∧
    r'.reqValid = (rxArmed f r).reqValid ∧ r'.startSpot = (rxArmed f r).startSpot := by
  rcases rxCycle_cases h with ⟨-, rfl⟩ | ⟨-, hb⟩
  · exact ⟨rfl, rfl, rfl, rfl⟩
  · exact hb.request_eq

/-- After a cycle the transmit arguments are those at the turn of TX_STEP. -/
theorem txCycle_args {f : InFields} {t t' : Tx} (h : txCycle f t = some t') :
    t'.txClass = (txStarted f t).txClass ∧ t'.txId = (txStarted f t).txId ∧
    t'.txLen = (txStarted f t).txLen ∧ t'.txInvalidArg = (txStarted f t).txInvalidArg := by
  rcases txCycle_cases h with ⟨-, rfl⟩ | ⟨-, hp⟩
  · exact ⟨rfl, rfl, rfl, rfl⟩
  · exact hp.args_eq

/-- Settles O54: the byte operations of both sides keep what ARM and TX_START load, so each clause is read off at
their turn. -/
theorem argumentsComeFromTheirOperation : Obligations.ArgumentsComeFromTheirOperation := by
  intro r s t h hr
  obtain ⟨-, -, hrun⟩ := cycle_next_sides h
  obtain ⟨hrx, htx⟩ := hrun hr
  have hreq := rxCycle_request hrx
  obtain ⟨hcls, hid, hlen, harg⟩ := txCycle_args htx
  refine ⟨fun ha => ?_, fun ha => ?_, fun hs => ?_, fun hs hle => ?_, fun hs => ?_, fun hs => ?_⟩
  · rw [rxArmed_of_arm ha] at hreq
    simpa using hreq
  · rw [rxArmed_of_not_arm ha] at hreq
    exact hreq
  · rw [harg]
    exact (txStarted_args_of_txStart hs s.tx).1
  · rw [hcls, hid, hlen]
    exact (txStarted_args_of_txStart hs s.tx).2.1 hle
  · rw [hcls, hid, hlen]
    cases hst : (unpackIn r.word).txStart
    · rw [txStarted_of_not_txStart hst]
      exact ⟨rfl, rfl, rfl⟩
    · exact (txStarted_args_of_txStart hst s.tx).2.2 (hs.resolve_left (by simp [hst]))
  · rw [harg, txStarted_of_not_txStart hs]

/-! ### The derived outputs -/

/-- Settles O6: on numbers the truncated subtraction is the `max` with 0, and `CAP` bounds the count well below 16
bits. -/
theorem derivedOutputsFollowTheirFormulas : Obligations.DerivedOutputsFollowTheirFormulas := by
  intro s
  have hcap : Config.machine.cap = 276 := rfl
  refine ⟨?_, ?_, inFrame_iff s.rx, by simp [txBusy]⟩
  · unfold storedCount
    omega
  · have hle : storedCount Config.machine s.rx ≤ Config.machine.cap := Nat.min_le_right _ _
    show (BitVec.ofNat 16 (storedCount Config.machine s.rx)).toNat = _
    rw [BitVec.toNat_ofNat]
    omega

end Sys2Proof.Machine

/-! The payload buffer at the interface: what READ_PAYLOAD answers, which addresses are refused, what the reads of a
cycle give the host, and which cycles write the buffer (spec/20_memory.md R42 to R46, R50). -/

namespace Sys2Proof.Machine

/-! ### READ_PAYLOAD, case by case -/

theorem execReadPayload_of_written {a : RdAddr} {s : State} {v : Byte} (hs : s.legal = true)
    (ha : a.toNat < Config.machine.cap) (hv : s.rx.pb.read? a.toNat = some v) :
    exec (.readPayload a) s = .next { s with host := { s.host with rdData := some v } } := by
  simp [exec, execReadPayload, guardReserved_of_legal _ hs, rdPort, ha, hv]

theorem execReadPayload_of_unwritten {a : RdAddr} {s : State} (hs : s.legal = true)
    (ha : a.toNat < Config.machine.cap) (hv : s.rx.pb.read? a.toNat = none) :
    exec (.readPayload a) s = .fault (.unwrittenByte a) := by
  simp [exec, execReadPayload, guardReserved_of_legal _ hs, rdPort, ha, hv]

theorem execReadPayload_of_cap_le {a : RdAddr} {s : State} (hs : s.legal = true)
    (ha : Config.machine.cap ≤ a.toNat) :
    exec (.readPayload a) s = .refused (.inputRejected (.rdAddrOutOfRange a)) := by
  rw [exec, execReadPayload, guardReserved_of_legal _ hs, if_neg (Nat.not_lt.2 ha)]

/-- Settles O7: the three answers of READ_PAYLOAD, one for each case of the address. -/
theorem readPayloadGivesTheStoredByte : Obligations.ReadPayloadGivesTheStoredByte := fun _ _ hs =>
  ⟨fun _ => execReadPayload_of_written hs, execReadPayload_of_unwritten hs, execReadPayload_of_cap_le hs⟩

/-! ### Addresses out of range -/

/-- The model's logarithm is Mathlib's, whose lemmas then apply to `AW` (R4). -/
theorem ceilLog2_eq_clog (n : Nat) : ceilLog2 n = Nat.clog 2 n := by
  refine eq_of_forall_ge_iff fun k => ?_
  rw [Nat.clog_le_iff_le_pow Nat.one_lt_two, ceilLog2]
  split
  · have : 0 < 2 ^ k := Nat.two_pow_pos k
    omega
  · have hlog : (n - 1).log2 < k ↔ n - 1 < 2 ^ k := Nat.log2_lt (by omega)
    omega

/-- `AW` bits always suffice, so an address is left over exactly when `CAP` falls short of `2 ^ AW` (R41, R45). -/
theorem exists_addr_ge_iff (n : Nat) : (∃ a, a < 2 ^ ceilLog2 n ∧ n ≤ a) ↔ ¬ ∃ k, n = 2 ^ k := by
  rw [ceilLog2_eq_clog]
  constructor
  · rintro ⟨a, hlt, hge⟩ ⟨k, rfl⟩
    rw [Nat.clog_pow 2 k Nat.one_lt_two] at hlt
    omega
  · intro hpow
    have hne : n ≠ 2 ^ Nat.clog 2 n := fun e => hpow ⟨_, e⟩
    exact ⟨n, lt_of_le_of_ne (Nat.le_pow_clog Nat.one_lt_two n) hne, le_rfl⟩

theorem cycle_of_cap_le {r : InRecord} (s : State)
    (h : Config.machine.cap ≤ (unpackIn r.word).rdAddr.toNat) :
    cycle r s = .refused (.inputRejected (.rdAddrOutOfRange (unpackIn r.word).rdAddr)) := by
  have hdec : decodeRecord r = .error (.rdAddrOutOfRange (unpackIn r.word).rdAddr) := if_neg (Nat.not_lt.2 h)
  rw [cycle, hdec]

/-- Settles O8: the decoder and READ_PAYLOAD refuse the address, and whether `AW` bits leave one is arithmetic. -/
theorem outOfRangeReadIsRefused : Obligations.OutOfRangeReadIsRefused := by
  refine ⟨fun r s => cycle_of_cap_le s, fun a s => execReadPayload_of_cap_le, fun c hc => ?_⟩
  obtain ⟨-, -, haw, -⟩ := hc
  rw [haw]
  exact exists_addr_ge_iff c.cap

/-! ### What the host takes in a cycle -/

theorem execIf_readStatus_next {b : Bool} {s t : State} (h : execIf b .readStatus s = .next t) :
    t.rx = s.rx ∧ (b = true → t.host.status = some (statusOutputs s)) := by
  cases b
  · cases h
    exact ⟨rfl, nofun⟩
  · rw [exec_readStatus_next h]
    exact ⟨rfl, fun _ => rfl⟩

theorem execIf_readPayload_next {b : Bool} {a : RdAddr} {s t : State}
    (h : execIf b (.readPayload a) s = .next t) :
    t.host.status = s.host.status ∧ (b = true → t.host.rdData = s.rx.pb.read? a.toNat) := by
  cases b
  · cases h
    exact ⟨rfl, nofun⟩
  · obtain ⟨-, v, hv, rfl⟩ : a.toNat < Config.machine.cap ∧ ∃ v, s.rx.pb.read? a.toNat = some v ∧
        t = { s with host := { s.host with rdData := some v } } := by
      simpa using (exec_next_cases (i := .readPayload a) h).2
    exact ⟨rfl, fun _ => hv.symm⟩

theorem runOps_ite_singleton (b : Bool) (i : Instr) (s : State) :
    runOps (if b then [i] else []) s = execIf b i s := by
  cases b
  · rfl
  · exact andThen_next_eq (exec i s)

/-- The reads of a cycle give the outputs of the state they start in (R44, R145). -/
theorem readOps_host {r : InRecord} {s t : State} (h : runOps (readOps r) s = .next t) :
    (r.takesStatus = true → t.host.status = some (statusOutputs s)) ∧
    (r.takesPayload = true → t.host.rdData = s.rx.pb.read? (unpackIn r.word).rdAddr.toNat) := by
  rw [readOps, runOps_append, runOps_ite_singleton] at h
  obtain ⟨u, hstatus, hpayload⟩ := andThen_eq_next h
  rw [runOps_ite_singleton] at hpayload
  obtain ⟨hrx, hgives⟩ := execIf_readStatus_next hstatus
  obtain ⟨hkeeps, hbyte⟩ := execIf_readPayload_next hpayload
  exact ⟨fun hs => hkeeps.trans (hgives hs), hrx ▸ hbyte⟩

/-- No strobed operation touches what the host took. -/
theorem strobedOps_host {f : InFields} {s t : State} (h : runOps (strobedOps f) s = .next t) :
    t.host = s.host := by
  cases hr : f.rst
  · rw [runOps_strobed hr] at h
    split at h
    · obtain ⟨s1, harm, h⟩ := andThen_eq_next h
      obtain ⟨s2, hbyte, h⟩ := andThen_eq_next h
      obtain ⟨s3, hstart, hstep⟩ := andThen_eq_next h
      rw [(execIf_txStep_next hstep).2.2, execIf_txStart_next hstart, (execIf_rxByte_next hbyte).2.2,
        execIf_arm_next harm]
    · rw [exec_idle_next h, clearPulses_host]
  · rw [strobedOps, if_pos hr, runOps_cons, runOps_nil_eq, andThen_next_eq] at h
    rw [exec_reset_next h]

/-- Settles O9: the reads come first and see the state before the edge, and what follows leaves the host side alone. -/
theorem outputsShowTheStateBeforeTheEdge : Obligations.OutputsShowTheStateBeforeTheEdge := by
  intro r s t h
  obtain ⟨-, u, hreads, -, -, hops⟩ := cycle_eq_next h
  rw [strobedOps_host hops, clearPulses_host]
  exact readOps_host hreads

/-! ### Writes to the buffer -/

/-- In `WaitPayload` the byte is stored at the storage address (R42, R108). -/
theorem RxByteRule.read?_pb_stored {c : Config} {b : Byte} {r r' : Rx} (h : RxByteRule c b r r')
    (hs : r.rxState = .waitPayload) {a : Nat} (ha : storeAddr? c r = some a) : r'.pb.read? a = some b := by
  rw [← rxByteStep_eq_some_iff, rxByteStep, hs] at h
  cases h
  simp [rxInWaitPayload, ha, read?_write_same]

theorem rxArmed_pb (f : InFields) (r : Rx) : (rxArmed f r).pb = r.pb := by
  unfold rxArmed
  split <;> rfl

/-- Where no byte is taken in `WaitPayload`, a cycle keeps the buffer: an ARM sends the framer back to `WaitSync1`
before the byte (R135, R141). -/
theorem rxCycle_pb_eq {f : InFields} {r r' : Rx} (h : rxCycle f r = some r')
    (hn : ¬ (f.rxValid = true ∧ f.arm = false ∧ r.rxState = .waitPayload)) : r'.pb = r.pb := by
  rcases rxCycle_cases h with ⟨-, rfl⟩ | ⟨hv, hb⟩
  · exact rxArmed_pb f r
  · have hs : (rxArmed f r).rxState ≠ .waitPayload := by
      cases ha : f.arm
      · rw [rxArmed_of_not_arm ha]
        exact fun hs => hn ⟨hv, ha, hs⟩
      · simp [rxArmed_of_arm ha]
    exact (hb.pb_eq hs).trans (rxArmed_pb f r)

/-- Without an ARM, a cycle that takes a byte is RX_BYTE on the receive side with its pulse cleared (R143, R144). -/
theorem rxCycle_byte {f : InFields} {r r' : Rx} (h : rxCycle f r = some r') (hv : f.rxValid = true)
    (ha : f.arm = false) : RxByteRule Config.machine f.rxData { r with rxDone := false } r' := by
  rcases rxCycle_cases h with ⟨hn, -⟩ | ⟨-, hb⟩
  · simp [hv] at hn
  · rwa [rxArmed_of_not_arm ha] at hb

/-- Settles O31: outside `WaitPayload` the buffer stays, and there the rule of RX_BYTE writes the storage address of
R108, which exists exactly when `i - start_spot` lies within the buffer. -/
theorem onlyPayloadBytesWriteTheBuffer : Obligations.OnlyPayloadBytesWriteTheBuffer := by
  intro r s t h hr f
  obtain ⟨-, -, hrun⟩ := cycle_next_sides h
  obtain ⟨hrx, -⟩ := hrun hr
  refine ⟨fun ⟨hv, ha, hs⟩ => ?_, fun hn a => by rw [rxCycle_pb_eq hrx hn]⟩
  have hb := rxCycle_byte hrx hv ha
  intro i off
  have hoff : payloadIndex s.rx - (s.rx.startSpot.toNat : Int) = off := rfl
  refine ⟨fun ⟨hge, hlt⟩ => ?_, fun hout a => hb.read?_pb_eq hs fun hstore => ?_⟩
  · have hstore : storeAddr? Config.machine s.rx = some off.toNat :=
      (storeAddr?_eq_some_iff _ _ _).2 ⟨by omega, by omega⟩
    exact ⟨hb.read?_pb_stored hs hstore,
      fun a ha => hb.read?_pb_eq hs fun e => ha (Option.some.inj (e.symm.trans hstore))⟩
  · obtain ⟨hat, hcap⟩ := (storeAddr?_eq_some_iff Config.machine s.rx a).1 hstore
    exact hout ⟨by omega, by omega⟩

end Sys2Proof.Machine

/-! The encoding: `unpackIn` and `packIn` are each other's inverse, and what the records of an instruction and of a
written line decode to (spec/30_encoding.md R64, R71 to R78). -/

namespace Sys2Proof.Machine

/-! ### The fields of `IN` and its bits -/

/-- A field is read back from its own place. -/
theorem extractLsb'_atBit_same {n lo : Nat} (v : BitVec n) (h : lo + n ≤ 94) :
    (atBit lo v).extractLsb' lo n = v := by
  ext k hk
  rw [← BitVec.getLsbD_eq_getElem, BitVec.getLsbD_extractLsb', getLsbD_atBit]
  simp [hk, show lo + k < 94 by omega]

/-- A field writes nothing into a place apart from its own. -/
theorem extractLsb'_atBit_disjoint {m lo : Nat} (v : BitVec m) {lo' n : Nat}
    (h : lo + m ≤ lo' ∨ lo' + n ≤ lo) : (atBit lo v).extractLsb' lo' n = 0#n := by
  ext k hk
  rw [← BitVec.getLsbD_eq_getElem, BitVec.getLsbD_extractLsb', getLsbD_atBit]
  rcases h with h | h
  · simp [BitVec.getLsbD_of_ge v (lo' + k - lo) (by omega)]
  · simp [show lo' + k < lo by omega]

theorem getLsbD_atBit_ofBool_same {lo : Nat} (b : Bool) (h : lo < 94) :
    (atBit lo (BitVec.ofBool b)).getLsbD lo = b := by
  simp [getLsbD_atBit, h]

theorem getLsbD_atBit_disjoint {m lo : Nat} (v : BitVec m) {k : Nat} (h : lo + m ≤ k ∨ k < lo) :
    (atBit lo v).getLsbD k = false := by
  rw [getLsbD_atBit]
  rcases h with h | h
  · simp [BitVec.getLsbD_of_ge v (k - lo) (by omega)]
  · simp [h]

/-- No two fields share a bit (R64). -/
@[simp] theorem unpackIn_packIn (f : InFields) : unpackIn (packIn f) = f := by
  simp (disch := decide) only [unpackIn, packIn, BitVec.extractLsb'_or, BitVec.getLsbD_or,
    extractLsb'_atBit_same, extractLsb'_atBit_disjoint, getLsbD_atBit_ofBool_same, getLsbD_atBit_disjoint,
    BitVec.zero_or, BitVec.or_zero, Bool.or_false, Bool.false_or]

/-- The fields cover every bit (R64). -/
@[simp] theorem packIn_unpackIn (w : InWord) : packIn (unpackIn w) = w := by
  apply BitVec.eq_of_getLsbD_eq
  intro k hk
  have hk : k < 94 := hk
  simp only [packIn, unpackIn, BitVec.getLsbD_or, getLsbD_atBit_bit, getLsbD_atBit_field, ← Bool.and_or_distrib_right,
    Config.machine_aw]
  rw [Bool.and_eq_right_iff_imp]
  intro _
  simp only [← Bool.decide_or, decide_eq_true_eq]
  omega

/-- Settles O34: the two inverse laws of the fields' places. -/
theorem inputWordFieldsRoundTrip : Obligations.InputWordFieldsRoundTrip :=
  ⟨unpackIn_packIn, packIn_unpackIn⟩

/-! ### The record of one instruction -/

theorem fields_statement (i : Instr) : Laws.Fields.Statement i :=
  match i with
  | .reset => Laws.Fields.reset
  | .arm cls id spot => Laws.Fields.arm cls id spot
  | .rxByte b => Laws.Fields.rxByte b
  | .txStart cls id len => Laws.Fields.txStart cls id len
  | .txStep pay => Laws.Fields.txStep pay
  | .idle => Laws.Fields.idle
  | .readPayload a => Laws.Fields.readPayload a
  | .readStatus => Laws.Fields.readStatus

/-- The reads of the cycle that performs one instruction alone. -/
def soloReads : Instr → List Instr
  | .readPayload a => [.readPayload a]
  | .readStatus => [.readStatus]
  | .reset | .arm .. | .rxByte _ | .txStart .. | .txStep _ | .idle => []

theorem readOps_encode (i : Instr) : readOps (encode i) = soloReads i := by
  cases i with
  | readPayload a => simp [readOps, encode, soloReads, Instr.fields]
  | reset | arm | rxByte | txStart | txStep | idle | readStatus => rfl

/-- What the record of a well-formed instruction decodes to. -/
theorem decodeRecord_encode {i : Instr} (h : i.wf = true) :
    decodeRecord (encode i) = .ok { reads := soloReads i, ops := Laws.Fields.soloOps i } := by
  obtain ⟨haddr, hops⟩ := fields_statement i h
  have hunpack : unpackIn (encode i).word = i.fields := unpackIn_packIn i.fields
  rw [decodeRecord_of_lt (hunpack ▸ haddr), hunpack, hops, readOps_encode]

/-- Settles O35: a strobed instruction stands in the record's operations, a read in its reads beside the IDLE of a
cycle without strobes. -/
theorem decodeEncodeInstruction : Obligations.DecodeEncodeInstruction := by
  intro i h
  refine ⟨_, decodeRecord_encode h, ?_⟩
  cases i with
  | reset | arm | rxByte | txStart | txStep | idle => exact ⟨rfl, .inl rfl⟩
  | readPayload | readStatus => exact ⟨rfl, .inr rfl⟩

/-! ### The record of a written line -/

@[simp] theorem unpackIn_record (l : Line) : unpackIn l.record.word = l.fields := unpackIn_packIn l.fields

/-- The strobes of a line's fields select the operations it writes down (R78, R143): without RST, whichever of the four
operations it names. -/
theorem strobedOps_fields (l : Line) : strobedOps l.fields = l.ops := by
  obtain ⟨rst, arm, rx, txs, txb, readAt⟩ := l
  cases rst
  · cases arm <;> cases rx <;> cases txs <;> cases txb <;> rfl
  · rfl

theorem readOps_record (l : Line) : readOps l.record = l.readAt.toList.map .readPayload := by
  rw [readOps, unpackIn_record]
  obtain ⟨rst, arm, rx, txs, txb, readAt⟩ := l
  cases readAt <;> rfl

/-- A line that reads nothing carries address 0, which is legal (R78). -/
theorem record_legal {l : Line} (h : ∀ a, l.readAt = some a → a.toNat < Config.machine.cap) :
    l.record.Legal := by
  rw [InRecord.Legal, unpackIn_record, Line.fields]
  cases hr : l.readAt with
  | none => exact Laws.Fields.zero_addr_legal
  | some a => exact h a hr

/-- Settles O36: the word gives the line's fields back, whose strobes select its operations. -/
theorem decodeEncodeLine : Obligations.DecodeEncodeLine := by
  intro l h
  rw [decodeRecord_of_lt (record_legal h), unpackIn_record, strobedOps_fields, readOps_record]
  cases l.readAt <;> rfl

end Sys2Proof.Machine

/-! The words written out in the specification, the codes of the enumerations, and which inputs and states stop the
machine (spec/30_encoding.md R64, R67 to R71, R75). -/

namespace Sys2Proof.Machine

/-! ### Words written out -/

/-- Settles O33: each word is a number, which the decoder evaluates. -/
theorem writtenOutWordsDecode : Obligations.WrittenOutWordsDecode := by
  refine ⟨?_, ?_, ?_, ?_, ?_, ?_, ?_, ?_⟩ <;> decide

/-! ### The codes -/

/-- The values of `rx_state` in the order of their codes (R67). -/
def RxState.all : List RxState :=
  [.waitSync1, .waitSync2, .waitClass, .waitId, .waitLen1, .waitLen2, .waitPayload, .waitChecksumA,
    .waitChecksumB, .complete] ++ (List.finRange 6).map .reserved

/-- The values of `tx_state` in the order of their codes (R68). -/
def TxState.all : List TxState :=
  [.txIdle, .txSync1, .txSync2, .txClass, .txId, .txLenL, .txLenH, .txPayload, .txCkA, .txCkB] ++
    (List.finRange 6).map .reserved

theorem RxState.mem_all (a : RxState) : a ∈ RxState.all := by cases a <;> simp [RxState.all]

theorem TxState.mem_all (a : TxState) : a ∈ TxState.all := by cases a <;> simp [TxState.all]

theorem RxState.map_code_all : RxState.all.map RxState.code = (List.finRange 16).map BitVec.ofFin := by decide

theorem TxState.map_code_all : TxState.all.map TxState.code = (List.finRange 16).map BitVec.ofFin := by decide

/-- Where the values of an enumeration, listed, have the 4-bit codes in order, each code is used by one value. -/
theorem code_bijective {α : Type} {code : α → BitVec 4} {all : List α} (hall : ∀ a, a ∈ all)
    (hcodes : all.map code = (List.finRange 16).map BitVec.ofFin) : Function.Bijective code := by
  constructor
  · intro a b hab
    have hnodup : (all.map code).Nodup := by rw [hcodes]; decide
    exact List.inj_on_of_nodup_map hnodup (hall a) (hall b) hab
  · intro v
    have hv : v ∈ all.map code := by
      rw [hcodes]
      exact List.mem_map.2 ⟨v.toFin, List.mem_finRange _, rfl⟩
    obtain ⟨a, -, ha⟩ := List.mem_map.1 hv
    exact ⟨a, ha⟩

/-- Settles O32: the listed values of each enumeration have its codes in order. -/
theorem enumerationCodes : Obligations.EnumerationCodes := by
  obtain ⟨hrxInj, hrxSurj⟩ := code_bijective RxState.mem_all RxState.map_code_all
  obtain ⟨htxInj, htxSurj⟩ := code_bijective TxState.mem_all TxState.map_code_all
  exact ⟨rfl, rfl, rfl, rfl, fun _ _ h => hrxInj h, fun _ _ h => htxInj h, fun v => ⟨hrxSurj v, htxSurj v⟩⟩

/-! ### A state without reserved codes runs every operation but the read of a byte -/

theorem exec_of_legal {i : Instr} {s : State} (hs : s.legal = true) (hi : ∀ a, i ≠ .readPayload a) :
    ∃ t, exec i s = .next t ∧ t.legal = true := by
  have hnext : ∃ t, exec i s = .next t := by
    cases i with
    | rxByte b =>
      obtain ⟨_, -, h⟩ := execRxByte_of_legal b hs
      exact ⟨_, h⟩
    | txStep p =>
      obtain ⟨_, -, h⟩ := execTxStep_of_legal p hs
      exact ⟨_, h⟩
    | readPayload a => exact absurd rfl (hi a)
    | reset | arm | txStart | idle | readStatus => exact ⟨_, guardReserved_of_legal _ hs⟩
  obtain ⟨t, ht⟩ := hnext
  exact ⟨t, ht, exec_keeps_legal ht⟩

theorem runOps_of_legal {is : List Instr} {s : State} (hs : s.legal = true)
    (his : ∀ a, Instr.readPayload a ∉ is) : ∃ t, runOps is s = .next t ∧ t.legal = true := by
  induction is generalizing s with
  | nil => exact ⟨s, rfl, hs⟩
  | cons i is ih =>
    obtain ⟨u, hu, hul⟩ := exec_of_legal hs fun a hi => his a (hi ▸ List.mem_cons_self)
    obtain ⟨t, ht, htl⟩ := ih hul fun a ha => his a (List.mem_cons_of_mem i ha)
    exact ⟨t, by rw [runOps_cons, hu, andThen_next, ht], htl⟩

theorem readPayload_not_mem_strobedOps (f : InFields) (a : RdAddr) : .readPayload a ∉ strobedOps f := by
  unfold strobedOps
  split
  · simp
  · extract_lets ops
    have hops : .readPayload a ∉ ops := by simp [ops]
    by_cases he : ops.isEmpty
    · simp [he]
    · rwa [if_neg he]

theorem readPayload_not_mem_readOps {r : InRecord} (h : r.takesPayload = false) (a : RdAddr) :
    .readPayload a ∉ readOps r := by
  cases hs : r.takesStatus <;> simp [readOps, h, hs]

/-- A legal word in which no byte is taken runs, under RESET too (R75). -/
theorem cycle_of_legal_word {r : InRecord} {s : State} (hs : s.legal = true) (hr : r.Legal)
    (hp : r.takesPayload = false) : ∃ t, cycle r s = .next t ∧ t.legal = true := by
  obtain ⟨u, hu, hul⟩ := runOps_of_legal hs (readPayload_not_mem_readOps hp)
  obtain ⟨t, ht, htl⟩ := runOps_of_legal (s := clearPulses u) (by simpa using hul)
    (readPayload_not_mem_strobedOps (unpackIn r.word))
  exact ⟨t, by simp only [cycle, decodeRecord_of_lt hr, hu, andThen_next, ht], htl⟩

/-- No cycle reaches a reserved code (R75). -/
theorem cycle_keeps_legal {r : InRecord} {s t : State} (h : cycle r s = .next t) : t.legal = true := by
  obtain ⟨-, u, -, -, -, hops⟩ := cycle_eq_next h
  exact legal_after_runOps (legal_of_runOps_next (strobedOps_ne_nil _) hops) hops

/-! ### A state with a reserved code is a fault -/

theorem reservedFault?_of_not_legal {s : State} (h : s.legal = false) :
    ∃ e, s.reservedFault? = some e ∧ (e = .reservedRxState s.rx.rxState.code ∨
      e = .reservedTxState s.tx.txState.code ∨ e = .reservedValidity) := by
  cases hf : s.reservedFault? with
  | none => simp [State.legal, hf] at h
  | some e =>
    refine ⟨e, rfl, ?_⟩
    unfold State.reservedFault? at hf
    split at hf
    · rename_i k hk
      exact .inl (by rw [hk, Option.some.inj hf])
    · split at hf
      · rename_i k hk
        exact .inr (.inl (by rw [hk, Option.some.inj hf]))
      · split at hf
        · exact .inr (.inr (Option.some.inj hf).symm)
        · cases hf

theorem guardReserved_of_fault {s : State} {e : Fault} (k : Host.Outcome State Fault Refusal)
    (h : s.reservedFault? = some e) : guardReserved s k = .fault e := by
  simp only [guardReserved, h]

theorem exec_of_reservedFault {s : State} {e : Fault} (i : Instr) (h : s.reservedFault? = some e) :
    exec i s = .fault e := by
  cases i <;> exact guardReserved_of_fault _ h

theorem runOps_of_not_legal {is : List Instr} {s : State} (hs : s.legal = false) (hne : is ≠ []) :
    ∃ e, runOps is s = .fault e := by
  obtain ⟨e, he, -⟩ := reservedFault?_of_not_legal hs
  cases is with
  | nil => exact absurd rfl hne
  | cons i is => exact ⟨e, by rw [runOps_cons, exec_of_reservedFault i he, andThen_fault]⟩

/-- The first operation of the cycle faults: a read, or a strobed operation, of which there is always one. -/
theorem cycle_of_not_legal {r : InRecord} {s : State} (hs : s.legal = false) (hr : r.Legal) :
    ∃ e, cycle r s = .fault e := by
  unfold cycle
  rw [decodeRecord_of_lt hr]
  by_cases hreads : readOps r = []
  · simp only [hreads, runOps_nil, andThen_next]
    exact runOps_of_not_legal (by simpa using hs) (strobedOps_ne_nil _)
  · obtain ⟨e, he⟩ := runOps_of_not_legal hs hreads
    exact ⟨e, by simp only [he, andThen_fault]⟩

/-- Settles O41: a legal state runs every legal word and stays legal, the decoder refuses the others, and the check for
reserved codes comes before the rule of each operation. -/
theorem onlyReservedStatesAndBadAddressesStop : Obligations.OnlyReservedStatesAndBadAddressesStop := by
  refine ⟨rfl, fun r s => cycle_of_legal_word, fun r s t => cycle_keeps_legal, fun r s h => ?_, fun i s hs => ?_,
    fun r s => cycle_of_not_legal⟩
  · exact ⟨_, cycle_of_cap_le s (Nat.not_lt.1 h)⟩
  · obtain ⟨e, he, hcode⟩ := reservedFault?_of_not_legal hs
    exact ⟨e, exec_of_reservedFault i he, hcode⟩

end Sys2Proof.Machine

/-! Transmitting a frame: the positions of TX_STEP in a frame being sent, the bytes that records of any schedule emit,
and the lines of SEND (spec/44_tx_framer.md R160 to R173; spec/30_encoding.md R79). -/

namespace Sys2Proof.Machine

/-! ### Checksum and frame, byte by byte -/

theorem compute_take_succ {xs : List Byte} {i : Nat} {v : Byte} (h : xs[i]? = some v) :
    compute (xs.take (i + 1)) = update (compute (xs.take i)) v := by
  rw [List.take_add_one, h, compute, List.foldl_append]
  rfl

/-- The covered bytes of `Frame(cls, id, p)` (R92, R172). -/
abbrev frameBody (cls id : Byte) (p : List Byte) : List Byte :=
  coveredBytes cls id (BitVec.ofNat 16 p.length) p

theorem frame_eq (cls id : Byte) (p : List Byte) : frame cls id p = 0xB5 :: 0x62 ::
    (frameBody cls id p ++ [(compute (frameBody cls id p)).1, (compute (frameBody cls id p)).2]) := rfl

theorem frameBody_length (cls id : Byte) (p : List Byte) : (frameBody cls id p).length = p.length + 4 := rfl

theorem frame_length (cls id : Byte) (p : List Byte) : (frame cls id p).length = p.length + 8 := by
  simp [frame_eq, coveredBytes]

/-- Behind the two sync bytes come the covered bytes. -/
theorem frame_getElem?_body {cls id : Byte} {p : List Byte} {i : Nat} {v : Byte}
    (h : (frameBody cls id p)[i]? = some v) : (frame cls id p)[i + 2]? = some v := by
  obtain ⟨hi, -⟩ := List.getElem?_eq_some_iff.1 h
  rw [frame_eq, List.getElem?_cons_succ, List.getElem?_cons_succ, List.getElem?_append_left hi, h]

/-- Behind the covered bytes come the two checksum bytes. -/
theorem frame_getElem?_checksum (cls id : Byte) (p : List Byte) (j : Nat) : (frame cls id p)[p.length + 6 + j]? =
    [(compute (frameBody cls id p)).1, (compute (frameBody cls id p)).2][j]? := by
  have hindex : p.length + 6 + j = (frameBody cls id p).length + j + 1 + 1 := by rw [frameBody_length]; omega
  rw [frame_eq, hindex, List.getElem?_cons_succ, List.getElem?_cons_succ,
    List.getElem?_append_right (Nat.le_add_right _ _), Nat.add_sub_cancel_left]

/-! ### The positions of a frame being sent -/

/-- `tx_state` once `k` bytes of a frame with `n` payload bytes are emitted (R162 to R171). -/
def sendState (n : Nat) : Nat → TxState
  | 0 => .txSync1
  | 1 => .txSync2
  | 2 => .txClass
  | 3 => .txId
  | 4 => .txLenL
  | 5 => .txLenH
  | i + 6 => if i < n then .txPayload else if i = n then .txCkA else if i = n + 1 then .txCkB else .txIdle

/-- The transmit side stands in `Frame(cls, id, p)` behind its first `k` bytes. -/
structure Tx.Sending (cls id : Byte) (p : List Byte) (k : Nat) (t : Tx) : Prop where
  class_eq : t.txClass = cls
  id_eq : t.txId = id
  len_toNat : t.txLen.toNat = p.length
  arg_valid : t.txInvalidArg = false
  state_eq : t.txState = sendState p.length k
  count_toNat : t.txCount.toNat = min (k - 6) p.length
  acc_eq : (t.txAccA, t.txAccB) = compute ((frameBody cls id p).take (k - 2))

/-- The transmit side has just emitted byte `k` of `Frame(cls, id, p)`. -/
structure Tx.Emitted (cls id : Byte) (p : List Byte) (k : Nat) (t : Tx) : Prop where
  sending : t.Sending cls id p (k + 1)
  valid : t.txOutValid = true
  data : (frame cls id p)[k]? = some t.txOutData

section Sending

variable {cls id : Byte} {p : List Byte} {k : Nat} {t t' : Tx}

/-- The output pulses are no part of the position. -/
theorem Tx.Sending.withPulses (h : t.Sending cls id p k) (done valid : Bool) :
    Tx.Sending cls id p k { t with txDone := done, txOutValid := valid } :=
  ⟨h.class_eq, h.id_eq, h.len_toNat, h.arg_valid, h.state_eq, h.count_toNat, h.acc_eq⟩

/-- A TX_START whose length fits begins its frame, whatever was being sent (R160). -/
theorem txStartStep_sending {len : Half} (hlen : len.toNat = p.length) (hcap : p.length ≤ Config.machine.cap)
    (cls id : Byte) (t : Tx) : (txStartStep Config.machine cls id len t).Sending cls id p 0 := by
  rw [txStartStep_of_le cls id t (hlen ▸ hcap)]
  exact ⟨rfl, rfl, hlen, rfl, rfl, (Nat.zero_min _).symm, rfl⟩

theorem Tx.Sending.txLen_eq (h : t.Sending cls id p k) : t.txLen = BitVec.ofNat 16 p.length := by
  rw [← h.len_toNat, BitVec.ofNat_toNat, BitVec.setWidth_eq]

/-- The accumulators with the next covered byte taken in (R94). -/
theorem Tx.Sending.update_acc {i : Nat} {v : Byte} (h : t.Sending cls id p (i + 2))
    (hv : (frameBody cls id p)[i]? = some v) :
    update (t.txAccA, t.txAccB) v = compute ((frameBody cls id p).take (i + 1)) := by
  rw [h.acc_eq, compute_take_succ hv, Nat.add_sub_cancel]

/-- Behind the payload the accumulators hold the checksum of the whole body. -/
theorem Tx.Sending.acc_final (h : t.Sending cls id p k) (hk : p.length + 6 ≤ k) :
    (t.txAccA, t.txAccB) = compute (frameBody cls id p) := by
  rw [h.acc_eq, List.take_of_length_le (by rw [frameBody_length]; omega)]

/-- TX_STEP on a header byte (R165 to R168): `i` is its place among the covered bytes. -/
theorem Tx.Sending.emitHeader {i : Nat} {v : Byte} {x : TxState} (h : t.Sending cls id p (i + 2)) (hi : i < 4)
    (hv : (frameBody cls id p)[i]? = some v) (hx : x = sendState p.length (i + 3)) :
    Tx.Emitted cls id p (i + 2) { emitCovered v t with txState := x } where
  sending := ⟨h.class_eq, h.id_eq, h.len_toNat, h.arg_valid, hx, h.count_toNat.trans (by omega), h.update_acc hv⟩
  valid := rfl
  data := frame_getElem?_body hv

/-- After the header an empty payload is skipped (R168). -/
theorem Tx.Sending.state_after_header (h : t.Sending cls id p k) :
    (if t.txLen = 0 then TxState.txCkA else .txPayload) = sendState p.length 6 := by
  have hlen := h.len_toNat
  by_cases h0 : t.txLen = 0
  · rw [h0] at hlen
    simp [h0, sendState, ← hlen]
  · have hpos : t.txLen.toNat ≠ 0 := fun e => h0 (BitVec.eq_of_toNat_eq e)
    simp only [if_neg h0, sendState, if_pos (show 0 < p.length by omega)]

/-- TX_STEP on a payload byte (R169). -/
theorem Tx.Sending.emitPayload {i : Nat} {b : Byte} (h : t.Sending cls id p (i + 6)) (hb : p[i]? = some b) :
    Tx.Emitted cls id p (i + 6) (txInTxPayload b t) := by
  obtain ⟨hi, -⟩ := List.getElem?_eq_some_iff.1 hb
  have hbody : (frameBody cls id p)[i + 4]? = some b := hb
  have hlen := h.len_toNat
  have hcount : t.txCount.toNat = i := h.count_toNat.trans (by omega)
  have hsucc : (t.txCount + 1).toNat = i + 1 := (txCount_succ_toNat (by omega)).trans (by rw [hcount])
  have hstate : (txInTxPayload b t).txState = sendState p.length (i + 7) := by
    simp only [txInTxPayload, sendState, hcount, hlen]
    by_cases hlast : i + 1 = p.length
    · simp [hlast]
    · simp [hlast, show i + 1 < p.length by omega]
  exact ⟨⟨h.class_eq, h.id_eq, hlen, h.arg_valid, hstate, hsucc.trans (by omega), h.update_acc hbody⟩, rfl,
    frame_getElem?_body hbody⟩

/-- TX_STEP on checksum A (R170). -/
theorem Tx.Sending.emitCkA (h : t.Sending cls id p (p.length + 6)) :
    Tx.Emitted cls id p (p.length + 6) { emit t.txAccA t with txState := .txCkB } where
  sending := ⟨h.class_eq, h.id_eq, h.len_toNat, h.arg_valid, by simp [sendState], h.count_toNat.trans (by omega),
    (h.acc_final le_rfl).trans (by rw [List.take_of_length_le (by rw [frameBody_length]; omega)])⟩
  valid := rfl
  data := (frame_getElem?_checksum cls id p 0).trans (by rw [← h.acc_final le_rfl]; rfl)

/-- TX_STEP on checksum B (R171). -/
theorem Tx.Sending.emitCkB (h : t.Sending cls id p (p.length + 7)) :
    Tx.Emitted cls id p (p.length + 7) { emit t.txAccB t with txDone := true, txState := .txIdle } where
  sending := ⟨h.class_eq, h.id_eq, h.len_toNat, h.arg_valid, by simp [sendState], h.count_toNat.trans (by omega),
    (h.acc_final (by omega)).trans (by rw [List.take_of_length_le (by rw [frameBody_length]; omega)])⟩
  valid := rfl
  data := (frame_getElem?_checksum cls id p 1).trans (by rw [← h.acc_final (by omega)]; rfl)

/-- TX_STEP emits the next byte of the frame (R162 to R171); `b` has to be right where the payload is read. -/
theorem Tx.Sending.step {b : Byte} (h : t.Sending cls id p k) (hr : TxStepRule Config.machine b t t')
    (hk : k < p.length + 8) (hb : 6 ≤ k → k - 6 < p.length → p[k - 6]? = some b) :
    t'.Emitted cls id p k := by
  have hstate := h.state_eq
  rw [← txStepStep_eq_some_iff, txStepStep, hstate] at hr
  match k with
  | 0 | 1 =>
    cases hr
    exact ⟨⟨h.class_eq, h.id_eq, h.len_toNat, h.arg_valid, rfl, h.count_toNat, h.acc_eq⟩, rfl, rfl⟩
  | 2 =>
    cases hr
    exact h.emitHeader (i := 0) (by decide) (by rw [h.class_eq]; rfl) rfl
  | 3 =>
    cases hr
    exact h.emitHeader (i := 1) (by decide) (by rw [h.id_eq]; rfl) rfl
  | 4 =>
    cases hr
    exact h.emitHeader (i := 2) (by decide) (by rw [h.txLen_eq]; rfl) rfl
  | 5 =>
    cases hr
    exact h.emitHeader (i := 3) (by decide) (by rw [h.txLen_eq]; rfl) h.state_after_header
  | i + 6 =>
    obtain hi | rfl | rfl : i < p.length ∨ i = p.length ∨ i = p.length + 1 := by omega
    · simp only [sendState, if_pos hi] at hr
      cases hr
      exact h.emitPayload (hb (by omega) hi)
    · simp only [sendState, lt_irrefl, if_false, if_true] at hr
      cases hr
      exact h.emitCkA
    · simp only [sendState, Nat.not_succ_lt_self, Nat.succ_ne_self, if_false, if_true] at hr
      cases hr
      exact h.emitCkB

end Sending

/-! ### Runs of cycles that send -/

theorem suppliedBytes_append (rs rs' : List InRecord) :
    suppliedBytes (rs ++ rs') = suppliedBytes rs ++ suppliedBytes rs' := List.filterMap_append

theorem suppliedBytes_singleton (r : InRecord) : suppliedBytes [r] =
    if (unpackIn r.word).txStep then [(unpackIn r.word).txPay] else [] := by
  cases h : (unpackIn r.word).txStep <;> simp [suppliedBytes, h]

theorem emittedBytes_append {rs : List InRecord} {s u : State} (h : runCycles rs s = .next u)
    (rs' : List InRecord) : emittedBytes (rs ++ rs') s = emittedBytes rs s ++ emittedBytes rs' u := by
  induction rs generalizing s with
  | nil =>
    cases h
    rfl
  | cons r rs ih =>
    obtain ⟨v, hv, h⟩ := andThen_eq_next h
    simp only [List.cons_append, emittedBytes, hv, ih h, List.append_assoc]

theorem emittedBytes_singleton {r : InRecord} {s t : State} (h : cycle r s = .next t) :
    emittedBytes [r] s = (outputByte t).toList := by
  simp only [emittedBytes, h, List.append_nil]

/-- The bytes `bs`, supplied from position `k` of a frame on, are those of the payload `p` wherever the payload is
read; elsewhere they are free (R174). -/
def Carries (p : List Byte) (k : Nat) (bs : List Byte) : Prop :=
  ∀ j < bs.length, 6 ≤ k + j → k + j - 6 < p.length → bs[j]? = p[k + j - 6]?

theorem Carries.of_append {p : List Byte} {k : Nat} {as bs : List Byte} (h : Carries p k (as ++ bs)) :
    Carries p k as ∧ Carries p (k + as.length) bs := by
  constructor
  · intro j hj hge hlt
    rw [← h j (by rw [List.length_append]; omega) hge hlt, List.getElem?_append_left hj]
  · intro j hj hge hlt
    rw [Nat.add_assoc] at hge hlt ⊢
    rw [← h (as.length + j) (by rw [List.length_append]; omega) hge hlt,
      List.getElem?_append_right (Nat.le_add_right _ _), Nat.add_sub_cancel_left]

/-- The run of `rs` from `s` to `t` emits the bytes of `Frame(cls, id, p)` from position `k` on, one for each byte
supplied, and ends behind them. -/
structure Sends (cls id : Byte) (p : List Byte) (k : Nat) (rs : List InRecord) (s t : State) : Prop where
  run_eq : runCycles rs s = .next t
  legal : t.legal = true
  sending : t.tx.Sending cls id p (k + (suppliedBytes rs).length)
  emitted_eq : emittedBytes rs s = ((frame cls id p).drop k).take (suppliedBytes rs).length

section Sends

variable {cls id : Byte} {p : List Byte} {k : Nat} {s t u : State} {r : InRecord} {rs rs' : List InRecord}

theorem Sends.nil (hs : s.legal = true) (h : s.tx.Sending cls id p k) : Sends cls id p k [] s s :=
  ⟨rfl, hs, h, rfl⟩

theorem Sends.append (h : Sends cls id p k rs s u)
    (h' : Sends cls id p (k + (suppliedBytes rs).length) rs' u t) : Sends cls id p k (rs ++ rs') s t where
  run_eq := by rw [runCycles_append, h.run_eq, andThen_next, h'.run_eq]
  legal := h'.legal
  sending := by
    rw [suppliedBytes_append, List.length_append, ← Nat.add_assoc]
    exact h'.sending
  emitted_eq := by
    rw [emittedBytes_append h.run_eq, h.emitted_eq, h'.emitted_eq, suppliedBytes_append, List.length_append,
      List.take_add, List.drop_drop]

/-- TX_START emits nothing, and the output of the cycle before is over (R144, R160). -/
theorem txStarted_txOutValid (f : InFields) (t : Tx) : (txStarted f t).txOutValid = false := by
  unfold txStarted
  split
  · exact (txStartStep_output _ _ _ _ _).1
  · rfl

/-- One cycle, the position being the one at the turn of TX_STEP. -/
theorem exists_sends_cycle (hs : s.legal = true) (hr : r.Smooth)
    (h : (txStarted (unpackIn r.word) s.tx).Sending cls id p k)
    (hlen : k + (suppliedBytes [r]).length ≤ p.length + 8) (hp : Carries p k (suppliedBytes [r])) :
    ∃ t, Sends cls id p k [r] s t := by
  obtain ⟨t, ht, htl, -, htx⟩ := cycle_of_smooth hs hr
  have hrun : runCycles [r] s = .next t := by rw [runCycles_cons, ht, andThen_next, runCycles_nil]
  obtain ⟨hstep, hkeep⟩ | ⟨hstep, hrule⟩ := txCycle_cases htx
  · have hbytes : suppliedBytes [r] = [] := by rw [suppliedBytes_singleton, hstep]; rfl
    have hout : outputByte t = none := by simp [outputByte, hkeep, txStarted_txOutValid]
    refine ⟨t, hrun, htl, ?_, ?_⟩
    · rw [hbytes, hkeep]
      exact h
    · rw [emittedBytes_singleton ht, hbytes, hout]
      rfl
  · have hbytes : suppliedBytes [r] = [(unpackIn r.word).txPay] := by
      rw [suppliedBytes_singleton, if_pos hstep]
    rw [hbytes] at hlen hp
    have hemit : t.tx.Emitted cls id p k := h.step hrule hlen fun hge hlt => (hp 0 Nat.one_pos hge hlt).symm
    refine ⟨t, hrun, htl, ?_, ?_⟩
    · rw [hbytes]
      exact hemit.sending
    · rw [emittedBytes_singleton ht, hbytes, outputByte, if_pos hemit.valid, List.length_singleton,
        List.take_one, List.head?_drop, hemit.data]

/-- Records without a TX_START carry on from position `k`. -/
theorem exists_sends (hs : s.legal = true) (hrs : ∀ r ∈ rs, r.Smooth ∧ (unpackIn r.word).txStart = false)
    (h : s.tx.Sending cls id p k) (hlen : k + (suppliedBytes rs).length ≤ p.length + 8)
    (hp : Carries p k (suppliedBytes rs)) : ∃ t, Sends cls id p k rs s t := by
  induction rs generalizing s k with
  | nil => exact ⟨s, .nil hs h⟩
  | cons r rs ih =>
    obtain ⟨⟨hr, hstart⟩, hrs⟩ := List.forall_mem_cons.1 hrs
    rw [← List.singleton_append, suppliedBytes_append] at hlen hp
    rw [List.length_append] at hlen
    obtain ⟨hpr, hprs⟩ := hp.of_append
    have hturn : (txStarted (unpackIn r.word) s.tx).Sending cls id p k := by
      rw [txStarted_of_not_txStart hstart]
      exact h.withPulses false false
    obtain ⟨u, hu⟩ := exists_sends_cycle hs hr hturn (by omega) hpr
    obtain ⟨t, ht⟩ := ih hu.legal hrs hu.sending (by omega) hprs
    exact ⟨t, hu.append ht⟩

/-- A cycle with a TX_START whose length fits begins the frame, from any legal state; its own TX_STEP emits the first
byte (R160, R173). -/
theorem exists_sends_start (hs : s.legal = true) (hr : r.Smooth) (hstart : (unpackIn r.word).txStart = true)
    (hcls : (unpackIn r.word).txClass = cls) (hid : (unpackIn r.word).txId = id)
    (hlen : (unpackIn r.word).txLen = BitVec.ofNat 16 p.length) (hcap : p.length ≤ Config.machine.cap) :
    ∃ t, Sends cls id p 0 [r] s t := by
  have hfits : (BitVec.ofNat 16 p.length).toNat = p.length := by
    have : Config.machine.cap = 276 := rfl
    rw [BitVec.toNat_ofNat]
    omega
  have hone : (suppliedBytes [r]).length ≤ 1 := List.length_filterMap_le _ _
  refine exists_sends_cycle hs hr ?_ (by omega) fun j hj hge => by omega
  rw [txStarted_of_txStart hstart, hcls, hid, hlen]
  exact txStartStep_sending hfits hcap cls id _

/-- The step that emits checksum B raises `tx_done` (R171). -/
theorem cycle_txDone (h : cycle r s = .next t) (hr : (unpackIn r.word).rst = false)
    (hstart : (unpackIn r.word).txStart = false) (hstep : (unpackIn r.word).txStep = true)
    (hs : s.tx.txState = .txCkB) : t.tx.txDone = true := by
  obtain ⟨-, -, hrun⟩ := cycle_next_sides h
  obtain ⟨hn, -⟩ | ⟨-, hrule⟩ := txCycle_cases (hrun hr).2
  · simp [hstep] at hn
  · rw [txStarted_of_not_txStart hstart, ← txStepStep_eq_some_iff, txStepStep, hs] at hrule
    rw [← Option.some.inj hrule]

end Sends

/-! ### The lines of SEND -/

/-- The record of the line `TXS cls, id, n | TXB 0x00` (R78, R79). -/
def startRecord (cls id : Byte) (n : Nat) : InRecord :=
  Line.record { txs := some (cls, id, BitVec.ofNat 16 n), txb := some 0 }

/-- The record of the line `TXB b` (R78). -/
def stepRecord (b : Byte) : InRecord := Line.record { txb := some b }

@[simp] theorem unpackIn_startRecord (cls id : Byte) (n : Nat) : unpackIn (startRecord cls id n).word =
    { txStart := true, txClass := cls, txId := id, txLen := BitVec.ofNat 16 n, txStep := true } :=
  unpackIn_record _

@[simp] theorem unpackIn_stepRecord (b : Byte) :
    unpackIn (stepRecord b).word = { txStep := true, txPay := b } := unpackIn_record _

theorem startRecord_smooth (cls id : Byte) (n : Nat) : (startRecord cls id n).Smooth :=
  ⟨record_legal nofun, rfl, by simp⟩

theorem stepRecord_smooth (b : Byte) : (stepRecord b).Smooth := ⟨record_legal nofun, rfl, by simp⟩

theorem suppliedBytes_startRecord (cls id : Byte) (n : Nat) : suppliedBytes [startRecord cls id n] = [0] := by
  simp [suppliedBytes]

theorem suppliedBytes_map_stepRecord (bs : List Byte) : suppliedBytes (bs.map stepRecord) = bs := by
  simp [suppliedBytes, List.filterMap_map]

/-- The bytes that the lines of SEND supply between its first and its last (R79). -/
def sendBytes (p : List Byte) : List Byte := List.replicate 5 0 ++ p ++ [0]

theorem send_records (cls id : Byte) (p : List Byte) : (send cls id p).map Line.record =
    [startRecord cls id p.length] ++ (sendBytes p).map stepRecord ++ [0].map stepRecord := by
  simp [send, sendBytes, startRecord, stepRecord, List.replicate_succ]

theorem sendBytes_length (p : List Byte) : (sendBytes p).length = p.length + 6 := by
  simp only [sendBytes, List.length_append, List.length_replicate, List.length_singleton]
  omega

/-- SEND supplies the payload where TX_STEP reads it (R173). -/
theorem carries_sendBytes (p : List Byte) : Carries p 1 (sendBytes p) := by
  intro j hj hge hlt
  have hindex : 1 + j - 6 = j - 5 := by omega
  rw [sendBytes, List.append_assoc, List.getElem?_append_right (by rw [List.length_replicate]; omega),
    List.length_replicate, List.getElem?_append_left (by omega), hindex]

theorem exists_sends_stepRecords {cls id : Byte} {p bs : List Byte} {k : Nat} {s : State} (hs : s.legal = true)
    (h : s.tx.Sending cls id p k) (hlen : k + bs.length ≤ p.length + 8) (hp : Carries p k bs) :
    ∃ t, Sends cls id p k (bs.map stepRecord) s t := by
  refine exists_sends hs (fun r hr => ?_) h (by rwa [suppliedBytes_map_stepRecord])
    (by rwa [suppliedBytes_map_stepRecord])
  obtain ⟨b, -, rfl⟩ := List.mem_map.1 hr
  exact ⟨stepRecord_smooth b, by rw [unpackIn_stepRecord]⟩

/-- From any legal state the lines of SEND send the whole frame and end with `tx_done` (R79, R173): the first line
begins the frame, the next ones take it up to checksum B, and the last one ends it. -/
theorem exists_sends_send {p : List Byte} {s : State} (cls id : Byte) (hs : s.legal = true)
    (hcap : p.length ≤ Config.machine.cap) :
    ∃ t, Sends cls id p 0 ((send cls id p).map Line.record) s t ∧ t.tx.txDone = true := by
  have hbytes := sendBytes_length p
  obtain ⟨u, hu⟩ := exists_sends_start (cls := cls) (id := id) hs (startRecord_smooth cls id p.length)
    (by simp) (by simp) (by simp) (by simp) hcap
  have hfirst : 0 + (suppliedBytes [startRecord cls id p.length]).length = 1 := by
    rw [suppliedBytes_startRecord, List.length_singleton]
  obtain ⟨v, hv⟩ := exists_sends_stepRecords hu.legal (hfirst ▸ hu.sending) (by omega) (carries_sendBytes p)
  have hsent := hu.append (hfirst ▸ hv)
  have hat : 0 + (suppliedBytes ([startRecord cls id p.length] ++ (sendBytes p).map stepRecord)).length =
      p.length + 7 := by
    rw [suppliedBytes_append, suppliedBytes_startRecord, suppliedBytes_map_stepRecord, List.length_append,
      List.length_singleton, hbytes]
    omega
  have hckB := hat ▸ hsent.sending
  obtain ⟨t, ht⟩ := exists_sends_stepRecords (bs := [0]) hsent.legal hckB le_rfl fun j hj hge hlt => by
    rw [List.length_singleton] at hj
    omega
  refine ⟨t, send_records cls id p ▸ hsent.append (hat ▸ ht), ?_⟩
  have hcycle : cycle (stepRecord 0) v = .next t := (andThen_next_eq _).symm.trans ht.run_eq
  exact cycle_txDone hcycle (by simp) (by simp) (by simp) (hckB.state_eq.trans (by simp [sendState]))

/-- Settles O57: the run of SEND emits the frame from its first byte to its last, and the end position fixes the
registers. -/
theorem sendEmitsExactlyTheFrame : Obligations.SendEmitsExactlyTheFrame := by
  intro cls id p s hs hcap
  obtain ⟨t, ht, hdone⟩ := exists_sends_send cls id hs hcap
  have hlen : (suppliedBytes ((send cls id p).map Line.record)).length = p.length + 8 := by
    rw [send_records, suppliedBytes_append, suppliedBytes_append, suppliedBytes_startRecord,
      suppliedBytes_map_stepRecord, suppliedBytes_map_stepRecord]
    simp only [List.length_append, List.length_singleton, sendBytes_length]
    omega
  have hend : t.tx.Sending cls id p (p.length + 8) := by
    rw [← hlen, ← Nat.zero_add (suppliedBytes _).length]
    exact ht.sending
  refine ⟨t, ht.run_eq, ?_, hend.state_eq.trans (by simp [sendState]), hdone, hend.arg_valid,
    hend.count_toNat.trans (by omega), hend.acc_final (by omega)⟩
  rw [ht.emitted_eq, hlen, List.drop_zero, List.take_of_length_le (by rw [frame_length])]

end Sys2Proof.Machine

/-! The checksum engine: how `compute` splits along its list, its closed form, and which changes of the covered
bytes it detects (spec/40_checksum.md R90 to R97). -/

namespace Sys2Proof.Machine

/-! ### One byte -/

theorem update_fst_toNat (acc : Byte × Byte) (x : Byte) :
    (update acc x).1.toNat = (acc.1.toNat + x.toNat) % 256 := BitVec.toNat_add acc.1 x

theorem update_snd_toNat (acc : Byte × Byte) (x : Byte) :
    (update acc x).2.toNat = (acc.2.toNat + (update acc x).1.toNat) % 256 :=
  BitVec.toNat_add acc.2 (update acc x).1

/-- Settles O10: the two sums of `update`, read as numbers; the corner cases and the example are evaluated. -/
theorem updateAddsIntoBothSums : Obligations.UpdateAddsIntoBothSums :=
  ⟨fun a b x => ⟨update_fst_toNat (a, b) x, update_snd_toNat (a, b) x⟩, by decide⟩

/-! ### Splitting the list -/

@[simp] theorem compute_nil : compute [] = (0, 0) := rfl

theorem weight_succ (n : Nat) : BitVec.ofNat 8 (n + 1) = BitVec.ofNat 8 n + 1 := BitVec.ofNat_add n 1

theorem compute_concat (xs : List Byte) (x : Byte) : compute (xs ++ [x]) = update (compute xs) x :=
  List.foldl_concat update (0, 0) x xs

/-- The bytes behind `xs` add their own sums, and each of them adds the A of `xs` to B once more. -/
theorem compute_append (xs ys : List Byte) : compute (xs ++ ys) =
    ((compute xs).1 + (compute ys).1,
      (compute xs).2 + BitVec.ofNat 8 ys.length * (compute xs).1 + (compute ys).2) := by
  induction ys using List.reverseRecOn with
  | nil => simp
  | append_singleton ys y ih =>
    rw [← List.append_assoc, compute_concat, ih, compute_concat, List.length_append, List.length_singleton,
      weight_succ]
    apply Prod.ext <;> simp only [update] <;> ring

/-- The first of `n` bytes has weight `n` in B. -/
theorem compute_cons (x : Byte) (xs : List Byte) : compute (x :: xs) =
    (x + (compute xs).1, BitVec.ofNat 8 (xs.length + 1) * x + (compute xs).2) := by
  have hone : compute [x] = (x, x) := by simp [compute, update]
  rw [← List.singleton_append, compute_append, hone, weight_succ]
  apply Prod.ext <;> simp only
  ring

/-! ### The closed form -/

theorem compute_fst_toNat (xs : List Byte) : (compute xs).1.toNat = (xs.map BitVec.toNat).sum % 256 := by
  induction xs with
  | nil => rfl
  | cons x xs ih =>
    rw [compute_cons, BitVec.toNat_add, ih, List.map_cons, List.sum_cons, Nat.add_mod_mod]

theorem weight_mul_toNat (n : Nat) (x : Byte) : (BitVec.ofNat 8 n * x).toNat = n * x.toNat % 256 := by
  rw [BitVec.toNat_mul, BitVec.toNat_ofNat, Nat.mod_mul_mod]

theorem compute_snd_toNat (xs : List Byte) : (compute xs).2.toNat =
    ((List.range xs.length).map fun k => (xs.length - k) * (xs.getD k 0).toNat).sum % 256 := by
  induction xs with
  | nil => rfl
  | cons x xs ih =>
    have hweights : (fun k => (xs.length + 1 - k) * ((x :: xs).getD k 0).toNat) ∘ Nat.succ =
        fun k => (xs.length - k) * (xs.getD k 0).toNat := by
      funext k
      simp
    rw [compute_cons, BitVec.toNat_add, weight_mul_toNat, ih, List.length_cons, List.range_succ_eq_map,
      List.map_cons, List.map_map, hweights, List.sum_cons, Nat.add_mod_mod, Nat.mod_add_mod]
    rfl

/-- Settles O11: the fold by its last byte, the closed form by its first, the examples evaluated. -/
theorem computeHasTheClosedForm : Obligations.ComputeHasTheClosedForm :=
  ⟨⟨compute_nil, compute_concat⟩, fun xs => ⟨compute_fst_toNat xs, compute_snd_toNat xs⟩, by decide⟩

/-! ### What A detects -/

/-- A tells any two values of one covered byte apart. -/
theorem compute_fst_middle_inj (pre post : List Byte) (x y : Byte) :
    (compute (pre ++ x :: post)).1 = (compute (pre ++ y :: post)).1 ↔ x = y := by
  simp [compute_append, compute_cons]

theorem xor_twoPow_ne_self (x : Byte) (j : Fin 8) : x ^^^ BitVec.twoPow 8 j ≠ x := by
  intro h
  have hbit : (x ^^^ BitVec.twoPow 8 j).getLsbD j = x.getLsbD j := by rw [h]
  simp at hbit

theorem validityAtCompletion_of_ckA_ne {r : Rx} (h : r.ckAccA ≠ r.ckRxA) (b : Byte) :
    validityAtCompletion r b = .notValid := by
  simp [validityAtCompletion, verify, h]

theorem exec_rxByte_of_waitChecksumB (b : Byte) {s : State} (hs : s.legal = true)
    (hB : s.rx.rxState = .waitChecksumB) :
    exec (.rxByte b) s = .next { s with rx := rxInWaitChecksumB Config.machine b s.rx } := by
  obtain ⟨r, hr, hexec⟩ := execRxByte_of_legal b hs
  rw [rxByteStep, hB] at hr
  rw [hexec, Option.some.inj hr]

/-- Settles O12: A tells the flipped byte from the original, and a wrong A makes the frame not valid. -/
theorem singleBitFlipIsDetected : Obligations.SingleBitFlipIsDetected := by
  intro pre post x j
  have hA : (compute (pre ++ (x ^^^ BitVec.twoPow 8 j) :: post)).1 ≠ (compute (pre ++ x :: post)).1 :=
    mt (compute_fst_middle_inj pre post _ _).1 (xor_twoPow_ne_self x j)
  refine ⟨hA, fun s b hs hB hacc hrx => ⟨_, exec_rxByte_of_waitChecksumB b hs hB, ?_, rfl⟩⟩
  have hne : s.rx.ckAccA ≠ s.rx.ckRxA := by
    rw [hrx]
    exact fun h => hA ((congrArg Prod.fst hacc).symm.trans h)
  exact validityAtCompletion_of_ckA_ne hne b

/-! ### What a swap changes -/

/-- A swap moves to `y` the weight by which the earlier position exceeds the later one: their distance. -/
theorem compute_swap (pre mid post : List Byte) (x y : Byte) : compute (pre ++ y :: mid ++ x :: post) =
    ((compute (pre ++ x :: mid ++ y :: post)).1,
      (compute (pre ++ x :: mid ++ y :: post)).2 + BitVec.ofNat 8 (mid.length + 1) * (y - x)) := by
  simp only [compute_append, compute_cons, List.length_cons, weight_succ]
  apply Prod.ext <;> simp only <;> ring

/-- Settles O13: the swap by the weights of the two positions, the undetected one evaluated. -/
theorem swappedBytesShiftOnlyB : Obligations.SwappedBytesShiftOnlyB :=
  ⟨fun pre mid post x y => Prod.ext_iff.1 (compute_swap pre mid post x y), by decide⟩

end Sys2Proof.Machine

/-! RX_BYTE as an operation, state by state (spec/41_rx_framer.md R102 to R111, R114). -/

namespace Sys2Proof.Machine

/-- RX_BYTE has one outcome. -/
theorem RxByteRule.unique {c : Config} {b : Byte} {r r₁ r₂ : Rx} (h₁ : RxByteRule c b r r₁)
    (h₂ : RxByteRule c b r r₂) : r₁ = r₂ :=
  Option.some.inj ((rxByteStep_eq_some_iff.2 h₁).symm.trans (rxByteStep_eq_some_iff.2 h₂))

/-- In a state without reserved codes RX_BYTE is the rule that its `rx_state` selects (R100). -/
theorem exec_rxByte_of_rule {b : Byte} {s : State} {r : Rx} (hs : s.legal = true)
    (hr : RxByteRule Config.machine b s.rx r) : exec (.rxByte b) s = .next { s with rx := r } := by
  obtain ⟨r', hr', hexec⟩ := execRxByte_of_legal b hs
  rw [hexec, (rxByteStep_eq_some_iff.1 hr').unique hr]

/-- A cycle that carries a byte alone performs RX_BYTE after the pulse clearing (R143, R144). -/
theorem cycle_encode_rxByte (b : Byte) (s : State) :
    cycle (encode (.rxByte b)) s = exec (.rxByte b) (clearPulses s) := by
  rw [cycle, decodeRecord_encode rfl]
  exact andThen_next_eq _

/-- Settles O14: the scan rule replaces `rx_state` alone, in `exec` and behind the pulse clearing of a cycle. -/
theorem syncScanKeepsTheRecord : Obligations.SyncScanKeepsTheRecord := by
  intro b s hs hscan
  have hcycle := exec_rxByte_of_rule (b := b) (s := clearPulses s) (by simpa using hs) (.scan hscan)
  exact ⟨exec_rxByte_of_rule hs (.scan hscan), _, (cycle_encode_rxByte b s).trans hcycle, rfl⟩

/-- Settles O15: the two rules of `WaitSync2`. -/
theorem secondSyncByteBeginsAFrame : Obligations.SecondSyncByteBeginsAFrame :=
  ⟨fun _ hs h2 => exec_rxByte_of_rule hs (.sync2Accepted h2 rfl),
    fun _ _ hs h2 hb => exec_rxByte_of_rule hs (.sync2Missed h2 hb)⟩

theorem lenWithLow_eq_ofNat (len : Half) (b : Byte) :
    lenWithLow len b = BitVec.ofNat 16 (len.toNat / 256 * 256 + b.toNat) := by
  rw [← lenWithLow_toNat, BitVec.ofNat_toNat, BitVec.setWidth_eq]

theorem lenWithHigh_eq_ofNat (len : Half) (b : Byte) :
    lenWithHigh len b = BitVec.ofNat 16 (b.toNat * 256 + len.toNat % 256) := by
  rw [← lenWithHigh_toNat, BitVec.ofNat_toNat, BitVec.setWidth_eq]

theorem lenWithHigh_eq_zero_iff (len : Half) (b : Byte) :
    lenWithHigh len b = 0 ↔ b.toNat * 256 + len.toNat % 256 = 0 := by
  rw [← lenWithHigh_toNat, ← BitVec.toNat_inj]
  rfl

/-- Settles O16: one rule per header byte; the two length rules assemble `pkt_len` as a number. -/
theorem headerBytesAreTakenInOrder : Obligations.HeaderBytesAreTakenInOrder := by
  intro b s hs acc
  refine ⟨fun h => exec_rxByte_of_rule hs (.waitClass h), fun h => exec_rxByte_of_rule hs (.waitId h),
    fun h => ?_, fun h => ?_⟩
  · rw [← lenWithLow_eq_ofNat]
    exact exec_rxByte_of_rule hs (.waitLen1 h)
  · rw [exec_rxByte_of_rule hs (.waitLen2 h)]
    simp only [rxInWaitLen2, lenWithHigh_eq_zero_iff, ← lenWithHigh_eq_ofNat]
    rfl

/-- Settles O17: the byte goes to the storage address of R108 where there is one, and nowhere else. -/
theorem payloadByteIsStoredWithinCapacity : Obligations.PayloadByteIsStoredWithinCapacity := by
  intro b s hs hp i off acc
  have hrule : RxByteRule Config.machine b s.rx _ := .waitPayload hp
  have hoff : payloadIndex s.rx - (s.rx.startSpot.toNat : Int) = off := rfl
  refine ⟨_, exec_rxByte_of_rule hs hrule, fun ⟨hge, hlt⟩ => ?_, fun hout => ?_⟩
  · have hstore : storeAddr? Config.machine s.rx = some off.toNat :=
      (storeAddr?_eq_some_iff _ _ _).2 ⟨by omega, by omega⟩
    exact ⟨hrule.read?_pb_stored hp hstore,
      fun a ha => hrule.read?_pb_eq hp fun e => ha (Option.some.inj (e.symm.trans hstore))⟩
  · have hnone : storeAddr? Config.machine s.rx = none := (storeAddr?_eq_none_iff _ _).2 (by omega)
    rw [hnone]

/-- Settles O18: the rule of `WaitChecksumA`. -/
theorem checksumAIsHeldForTheLastByte : Obligations.ChecksumAIsHeldForTheLastByte :=
  fun _ _ hs hA => exec_rxByte_of_rule hs (.waitChecksumA hA)

theorem verify_eq_true_iff (r : Rx) (b : Byte) : verify r b = true ↔ r.ckAccA = r.ckRxA ∧ r.ckAccB = b := by
  simp [verify]

/-- Settles O19: the rule of `WaitChecksumB`, its verdicts read off by whether the checksum matches. -/
theorem checksumBCompletesTheFrame : Obligations.ChecksumBCompletesTheFrame := by
  intro b s hs hB ok
  refine ⟨_, _, exec_rxByte_of_rule hs (.waitChecksumB hB), fun hok => ?_, fun hok => ?_, fun hreq => ?_,
    fun hok hreq => ?_⟩
  · rw [validityAtCompletion, if_pos ((verify_eq_true_iff _ _).2 hok)]
  · have hbad : verify s.rx b = false := Bool.eq_false_iff.2 (mt (verify_eq_true_iff _ _).1 hok)
    simp [validityAtCompletion, matchAtCompletion, hbad]
  · simp [matchAtCompletion, hreq]
  · simp [matchAtCompletion, (verify_eq_true_iff s.rx b).2 hok, hreq]

/-- A byte inside a frame leaves the framer inside it or completes it (R114). -/
theorem RxByteRule.inFrame_or_complete {c : Config} {b : Byte} {r r' : Rx} (h : RxByteRule c b r r')
    (hf : inFrame r = true) : inFrame r' = true ∨ r'.rxState = .complete := by
  cases h with
  | scan hs => obtain hs | hs := hs <;> simp [inFrame, hs] at hf
  | sync2Accepted hs | sync2Missed hs => simp [inFrame, hs] at hf
  | waitClass | waitId | waitLen1 | waitChecksumA => exact .inl rfl
  | waitLen2 | waitPayload =>
    refine .inl ((inFrame_iff _).2 ?_)
    simp only [rxInWaitLen2, rxInWaitPayload]
    split <;> simp
  | waitChecksumB => exact .inr rfl

/-- Settles O52: without RESET and ARM a cycle is a rule of RX_BYTE, or the pulse clearing alone. -/
theorem noAbortInsideAFrame : Obligations.NoAbortInsideAFrame := by
  intro r s t h hr ha
  obtain ⟨-, -, hrun⟩ := cycle_next_sides h
  have hcases := rxCycle_cases (hrun hr).1
  rw [rxArmed_of_not_arm ha] at hcases
  rcases hcases with ⟨-, hkeep⟩ | ⟨hv, hb⟩
  · exact ⟨fun hf => .inl (by rw [hkeep]; exact hf), fun _ => hkeep⟩
  · exact ⟨hb.inFrame_or_complete, fun hn => by simp [hn] at hv⟩

end Sys2Proof.Machine

/-! Receiving a frame: the positions of RX_BYTE in a frame behind its sync pair, and what runs of cycles of any schedule
make of the bytes they receive (spec/41_rx_framer.md R112 to R116). -/

namespace Sys2Proof.Machine

/-! ### The bytes behind a sync pair -/

/-- The declared length `L` of the frame that the bytes behind a sync pair begin; a length byte still to come
counts as 0, as ClearFrame leaves it (R101, R106, R107). -/
def frameLen (bs : List Byte) : Nat := (bs.getD 3 0).toNat * 256 + (bs.getD 2 0).toNat

/-- The payload bytes among the bytes behind a sync pair. -/
def payloadOf (bs : List Byte) : List Byte := (bs.drop 4).take (frameLen bs)

/-- `rx_state` once `k` bytes of a frame with `n` payload bytes have followed its sync pair (R104 to R110). -/
def receiveState (n : Nat) : Nat → RxState
  | 0 => .waitClass
  | 1 => .waitId
  | 2 => .waitLen1
  | 3 => .waitLen2
  | i + 4 =>
    if i < n then .waitPayload else if i = n then .waitChecksumA else if i = n + 1 then .waitChecksumB else .complete

/-- The frame that the bytes begin is not yet complete. -/
abbrev Incomplete (bs : List Byte) : Prop := bs.length < 4 ∨ bs.length < frameLen bs + 6

/-- The bytes do not reach beyond the frame they begin. -/
abbrev WithinFrame (bs : List Byte) : Prop := bs.length < 4 ∨ bs.length ≤ frameLen bs + 6

theorem frameLen_lt (bs : List Byte) : frameLen bs < 65536 := by
  have h3 := (bs.getD 3 0).isLt
  have h2 := (bs.getD 2 0).isLt
  unfold frameLen
  omega

/-- The fourth byte settles the length. -/
theorem frameLen_append {bs : List Byte} (h : 4 ≤ bs.length) (cs : List Byte) :
    frameLen (bs ++ cs) = frameLen bs := by
  unfold frameLen
  rw [List.getD_append _ _ _ _ (by omega), List.getD_append _ _ _ _ (by omega)]

theorem WithinFrame.incomplete {bs cs : List Byte} {b : Byte} (h : WithinFrame (bs ++ b :: cs)) : Incomplete bs := by
  rcases Nat.lt_or_ge bs.length 4 with hlt | hge
  · exact .inl hlt
  · rw [WithinFrame, frameLen_append hge, List.length_append, List.length_cons] at h
    exact .inr (by omega)

theorem payloadOf_length {bs : List Byte} : (payloadOf bs).length = min (frameLen bs) (bs.length - 4) := by
  rw [payloadOf, List.length_take, List.length_drop]

theorem payloadOf_of_length_le {bs : List Byte} (h : bs.length ≤ 4) : payloadOf bs = [] := by
  rw [payloadOf, List.drop_of_length_le h, List.take_nil]

/-- A byte in the payload. -/
theorem payloadOf_concat_of_lt {bs : List Byte} (b : Byte) (h4 : 4 ≤ bs.length) (hlt : bs.length < frameLen bs + 4) :
    payloadOf (bs ++ [b]) = payloadOf bs ++ [b] := by
  rw [payloadOf, payloadOf, frameLen_append h4, List.drop_append_of_le_length h4,
    List.take_of_length_le (by simp; omega), List.take_of_length_le (by simp; omega)]

/-- A byte behind the payload. -/
theorem payloadOf_append_of_le {bs : List Byte} (cs : List Byte) (hle : frameLen bs + 4 ≤ bs.length) :
    payloadOf (bs ++ cs) = payloadOf bs := by
  rw [payloadOf, payloadOf, frameLen_append (by omega), List.drop_append_of_le_length (by omega),
    List.take_append_of_le_length (by simp; omega)]

theorem getElem?_concat_of_ne {xs : List Byte} {x : Byte} {i : Nat} (h : i ≠ xs.length) :
    (xs ++ [x])[i]? = xs[i]? := by
  rcases Nat.lt_or_gt_of_ne h with hlt | hgt
  · exact List.getElem?_append_left hlt
  · rw [List.getElem?_eq_none (by simp; omega), List.getElem?_eq_none (by omega)]

theorem getD_concat_of_ne {xs : List Byte} {x : Byte} {i : Nat} (h : i ≠ xs.length) :
    (xs ++ [x]).getD i 0 = xs.getD i 0 := by
  rw [List.getD_eq_getElem?_getD, List.getD_eq_getElem?_getD, getElem?_concat_of_ne h]

theorem getD_concat_length (xs : List Byte) (x : Byte) : (xs ++ [x]).getD xs.length 0 = x := by
  rw [List.getD_eq_getElem?_getD, List.getElem?_concat_length, Option.getD_some]

/-! ### The positions of a frame being received -/

/-- The receive side has taken the bytes `bs` behind a sync pair. Its starting spot is that of `r0`, and so are the
bytes of `PB` that no payload byte has overwritten. -/
structure Rx.Received (r r0 : Rx) (bs : List Byte) : Prop where
  spot_eq : r.startSpot = r0.startSpot
  state_eq : r.rxState = receiveState (frameLen bs) bs.length
  count_toNat : r.byteCounter.toNat = bs.length
  class_eq : r.pktClass = bs.getD 0 0
  id_eq : r.pktId = bs.getD 1 0
  len_toNat : r.pktLen.toNat = frameLen bs
  acc_eq : (r.ckAccA, r.ckAccB) = compute (bs.take (frameLen bs + 4))
  ckRxA_eq : r.ckRxA = bs.getD (frameLen bs + 4) 0
  ckRxB_eq : r.ckRxB = bs.getD (frameLen bs + 5) 0
  read?_pb (k : Nat) : r.pb.read? k =
    if k < Config.machine.cap then (payloadOf bs)[r0.startSpot.toNat + k]?.or (r0.pb.read? k) else r0.pb.read? k

theorem receiveState_of_lt {n k : Nat} (h4 : 4 ≤ k) (h : k < n + 4) : receiveState n k = .waitPayload := by
  obtain ⟨i, rfl⟩ := Nat.exists_eq_add_of_le' h4
  exact if_pos (Nat.add_lt_add_iff_right.1 h)

@[simp] theorem receiveState_checksumA (n : Nat) : receiveState n (n + 4) = .waitChecksumA := by simp [receiveState]
@[simp] theorem receiveState_checksumB (n : Nat) : receiveState n (n + 5) = .waitChecksumB := by simp [receiveState]
@[simp] theorem receiveState_complete (n : Nat) : receiveState n (n + 6) = .complete := by simp [receiveState]

section Receiving

variable {r0 r r' : Rx} {bs : List Byte} {b : Byte}

/-- The completion pulse is no part of the position. -/
theorem Rx.Received.withDone (h : r.Received r0 bs) (d : Bool) : Rx.Received { r with rxDone := d } r0 bs :=
  ⟨h.spot_eq, h.state_eq, h.count_toNat, h.class_eq, h.id_eq, h.len_toNat, h.acc_eq, h.ckRxA_eq, h.ckRxB_eq,
    h.read?_pb⟩

/-- A frame begins behind its sync pair with a cleared record (R103). -/
theorem Rx.Cleared.received (h : r.Cleared) (hs : r.rxState = .waitClass) (hspot : r.startSpot = r0.startSpot)
    (hpb : r.pb = r0.pb) : r.Received r0 [] := by
  obtain ⟨hcls, hid, hlen, hcnt, hA, hB, hrA, hrB, -⟩ := (clearFrame_eq_self_iff r).1 h
  exact ⟨hspot, hs, by rw [hcnt]; rfl, hcls, hid, by rw [hlen]; decide, by rw [hA, hB]; rfl, hrA, hrB,
    fun k => by simp [hpb, payloadOf_of_length_le]⟩

/-- Behind the header and before its last byte, the framer is in one of three states. -/
theorem Rx.Received.body_cases (h : r.Received r0 bs) (h4 : 4 ≤ bs.length) (hlt : bs.length < frameLen bs + 6) :
    (bs.length < frameLen bs + 4 ∧ r.rxState = .waitPayload) ∨
    (bs.length = frameLen bs + 4 ∧ r.rxState = .waitChecksumA) ∨
    (bs.length = frameLen bs + 5 ∧ r.rxState = .waitChecksumB) := by
  rw [h.state_eq]
  rcases Nat.lt_or_ge bs.length (frameLen bs + 4) with hp | hge
  · exact .inl ⟨hp, receiveState_of_lt h4 hp⟩
  · obtain hA | hB : bs.length = frameLen bs + 4 ∨ bs.length = frameLen bs + 5 := by omega
    · exact .inr (.inl ⟨hA, by rw [hA, receiveState_checksumA]⟩)
    · exact .inr (.inr ⟨hB, by rw [hB, receiveState_checksumB]⟩)

/-- Until its last byte the framer is inside the frame (R114). -/
theorem Rx.Received.inFrame_eq_true (h : r.Received r0 bs) (hlt : Incomplete bs) : inFrame r = true := by
  obtain h4 | h4 := Nat.lt_or_ge bs.length 4
  · have hstate := h.state_eq
    interval_cases bs.length <;> simp [inFrame, hstate, receiveState]
  · rcases h.body_cases h4 (by omega) with ⟨-, hs⟩ | ⟨-, hs⟩ | ⟨-, hs⟩ <;> simp [inFrame, hs]

/-- Every byte of a frame is counted, and the counter does not wrap (R15, R113). -/
theorem Rx.Received.count_succ (h : r.Received r0 bs) (hlt : Incomplete bs) (b : Byte) :
    (r.byteCounter + 1).toNat = (bs ++ [b]).length := by
  have hlen := frameLen_lt bs
  rw [byteCount_succ_toNat (by rw [h.count_toNat]; omega), h.count_toNat, List.length_append, List.length_singleton]

/-- The accumulators with the next covered byte taken in (R92, R94). -/
theorem Rx.Received.update_acc (h : r.Received r0 bs) (hlt : bs.length < 4 ∨ bs.length < frameLen bs + 4) (b : Byte) :
    update (r.ckAccA, r.ckAccB) b = compute ((bs ++ [b]).take (frameLen (bs ++ [b]) + 4)) := by
  have hle : (bs ++ [b]).length ≤ frameLen (bs ++ [b]) + 4 := by
    rw [List.length_append, List.length_singleton]
    obtain h4 | h4 := Nat.lt_or_ge bs.length 4
    · omega
    · rw [frameLen_append h4]
      omega
  rw [h.acc_eq, List.take_of_length_le (by omega), List.take_of_length_le hle, compute_concat]

/-- RX_BYTE on a header byte (R104 to R107): it writes one of three registers and leaves the buffer alone. -/
theorem Rx.Received.takeHeader {x : RxState} {cls id : Byte} {len : Half} (h : r.Received r0 bs) (h4 : bs.length < 4)
    (hx : x = receiveState (frameLen (bs ++ [b])) (bs ++ [b]).length) (hcls : cls = (bs ++ [b]).getD 0 0)
    (hid : id = (bs ++ [b]).getD 1 0) (hlen : len.toNat = frameLen (bs ++ [b])) :
    Rx.Received { coverByte b r with rxState := x, pktClass := cls, pktId := id, pktLen := len } r0 (bs ++ [b]) where
  spot_eq := h.spot_eq
  state_eq := hx
  count_toNat := h.count_succ (.inl h4) b
  class_eq := hcls
  id_eq := hid
  len_toNat := hlen
  acc_eq := h.update_acc (.inl h4) b
  ckRxA_eq := h.ckRxA_eq.trans (by rw [List.getD_eq_default _ _ (by omega), List.getD_eq_default _ _ (by simp; omega)])
  ckRxB_eq := h.ckRxB_eq.trans (by rw [List.getD_eq_default _ _ (by omega), List.getD_eq_default _ _ (by simp; omega)])
  read?_pb k := by
    have hempty : payloadOf (bs ++ [b]) = payloadOf bs := by
      rw [payloadOf_of_length_le (by simp; omega), payloadOf_of_length_le (by omega)]
    rw [hempty]
    exact h.read?_pb k

/-- After the length an empty payload is skipped (R107). -/
theorem receiveState_after_header (len : Half) :
    (if len = 0 then RxState.waitChecksumA else .waitPayload) = receiveState len.toNat 4 := by
  by_cases h0 : len = 0
  · subst h0
    rfl
  · have hpos : len.toNat ≠ 0 := fun e => h0 (BitVec.eq_of_toNat_eq e)
    rw [if_neg h0, receiveState_of_lt le_rfl (by omega)]

/-- The four header bytes in their order. -/
theorem Rx.Received.stepHeader (h : r.Received r0 bs) (hr : RxByteRule Config.machine b r r') (h4 : bs.length < 4) :
    r'.Received r0 (bs ++ [b]) := by
  rw [← rxByteStep_eq_some_iff, rxByteStep, h.state_eq] at hr
  match bs, h with
  | [], h =>
    cases hr
    exact h.takeHeader h4 rfl rfl h.id_eq h.len_toNat
  | [_], h =>
    cases hr
    exact h.takeHeader h4 rfl h.class_eq rfl h.len_toNat
  | [c, i], h =>
    cases hr
    have hlen : (lenWithLow r.pktLen b).toNat = frameLen [c, i, b] := by
      rw [lenWithLow_toNat, h.len_toNat]
      simp [frameLen]
    exact h.takeHeader h4 rfl h.class_eq h.id_eq hlen
  | [c, i, lo], h =>
    cases hr
    have hlen : (lenWithHigh r.pktLen b).toNat = frameLen [c, i, lo, b] := by
      have hlo := lo.isLt
      rw [lenWithHigh_toNat, h.len_toNat]
      show b.toNat * 256 + (0 * 256 + lo.toNat) % 256 = b.toNat * 256 + lo.toNat
      omega
    exact h.takeHeader h4 ((receiveState_after_header _).trans (by rw [hlen]; rfl)) h.class_eq h.id_eq hlen

/-- RX_BYTE behind the header: the length stands, and the byte is payload or one of the two checksum bytes. -/
theorem Rx.Received.stepBody (h : r.Received r0 bs) (hr : RxByteRule Config.machine b r r') (h4 : 4 ≤ bs.length)
    (hlt : bs.length < frameLen bs + 6)
    (hstate : r'.rxState = receiveState (frameLen bs) (bs.length + 1))
    (hacc : (r'.ckAccA, r'.ckAccB) = compute ((bs ++ [b]).take (frameLen bs + 4)))
    (hA : r'.ckRxA = (bs ++ [b]).getD (frameLen bs + 4) 0) (hB : r'.ckRxB = (bs ++ [b]).getD (frameLen bs + 5) 0)
    (hpb : ∀ k, r'.pb.read? k = if k < Config.machine.cap then
      (payloadOf (bs ++ [b]))[r0.startSpot.toNat + k]?.or (r0.pb.read? k) else r0.pb.read? k) :
    r'.Received r0 (bs ++ [b]) := by
  obtain ⟨hn, hcls, hid, hlen1, hlen2⟩ : ¬ (r.rxState = .waitSync2 ∧ b = Config.machine.sync2) ∧
      r.rxState ≠ .waitClass ∧ r.rxState ≠ .waitId ∧ r.rxState ≠ .waitLen1 ∧ r.rxState ≠ .waitLen2 := by
    rcases h.body_cases h4 hlt with ⟨-, hs⟩ | ⟨-, hs⟩ | ⟨-, hs⟩ <;> simp [hs]
  obtain ⟨-, -, -, hspot⟩ := hr.request_eq
  exact {
    spot_eq := hspot.trans h.spot_eq
    state_eq := by rw [frameLen_append h4, hstate, List.length_append, List.length_singleton]
    count_toNat := by rw [hr.byteCounter_succ (h.inFrame_eq_true (.inr hlt)), h.count_succ (.inr hlt)]
    class_eq := by rw [hr.pktClass_eq hn hcls, h.class_eq, getD_concat_of_ne (by omega)]
    id_eq := by rw [hr.pktId_eq hn hid, h.id_eq, getD_concat_of_ne (by omega)]
    len_toNat := by rw [hr.pktLen_eq hn hlen1 hlen2, h.len_toNat, frameLen_append h4]
    acc_eq := by rw [frameLen_append h4, hacc]
    ckRxA_eq := by rw [frameLen_append h4, hA]
    ckRxB_eq := by rw [frameLen_append h4, hB]
    read?_pb := hpb }

/-- The next payload byte is stored behind those before it, counted from the starting spot (R108). -/
theorem Rx.Received.storeAddr?_eq_some_iff (h : r.Received r0 bs) (h4 : 4 ≤ bs.length)
    (hlt : bs.length < frameLen bs + 4) (k : Nat) : storeAddr? Config.machine r = some k ↔
      r0.startSpot.toNat + k = (payloadOf bs).length ∧ k < Config.machine.cap := by
  rw [Machine.storeAddr?_eq_some_iff, payloadIndex, h.count_toNat, h.spot_eq, payloadOf_length]
  omega

/-- RX_BYTE on a payload byte (R108). -/
theorem Rx.Received.stepPayload (h : r.Received r0 bs) (hr : RxByteRule Config.machine b r r') (h4 : 4 ≤ bs.length)
    (hlt : bs.length < frameLen bs + 4) (hs : r.rxState = .waitPayload) : r'.Received r0 (bs ++ [b]) := by
  obtain rfl := hr.unique (.waitPayload hs)
  have hstate : (rxInWaitPayload Config.machine b r).rxState = receiveState (frameLen bs) (bs.length + 1) := by
    simp only [rxInWaitPayload, payloadIndex, h.count_toNat, h.len_toNat]
    split
    · rw [show bs.length + 1 = frameLen bs + 4 by omega, receiveState_checksumA]
    · rw [receiveState_of_lt (by omega) (by omega)]
  have hacc := h.update_acc (.inr hlt) b
  rw [frameLen_append h4] at hacc
  refine h.stepBody hr h4 (by omega) hstate hacc ?_ ?_ fun k => ?_
  · rw [getD_concat_of_ne (by omega)]
    exact h.ckRxA_eq
  · rw [getD_concat_of_ne (by omega)]
    exact h.ckRxB_eq
  · have hiff := h.storeAddr?_eq_some_iff h4 hlt k
    rw [payloadOf_concat_of_lt b h4 hlt]
    by_cases hk : storeAddr? Config.machine r = some k
    · obtain ⟨hat, hcap⟩ := hiff.1 hk
      rw [hr.read?_pb_stored hs hk, if_pos hcap, hat, List.getElem?_concat_length, Option.some_or]
    · rw [hr.read?_pb_eq hs hk, h.read?_pb]
      refine ite_congr rfl (fun hcap => ?_) fun _ => rfl
      rw [getElem?_concat_of_ne fun e => hk (hiff.2 ⟨e, hcap⟩)]

/-- RX_BYTE on checksum A (R109). -/
theorem Rx.Received.stepChecksumA (h : r.Received r0 bs) (hr : RxByteRule Config.machine b r r')
    (hlen : bs.length = frameLen bs + 4) (hs : r.rxState = .waitChecksumA) : r'.Received r0 (bs ++ [b]) := by
  obtain rfl := hr.unique (.waitChecksumA hs)
  refine h.stepBody hr (by omega) (by omega) (by rw [hlen, receiveState_checksumB]; rfl) ?_ ?_ ?_ fun k => ?_
  · rw [List.take_append_of_le_length hlen.ge]
    exact h.acc_eq
  · rw [← hlen, getD_concat_length]
    rfl
  · rw [getD_concat_of_ne (by omega)]
    exact h.ckRxB_eq
  · rw [payloadOf_append_of_le _ hlen.ge]
    exact h.read?_pb k

/-- RX_BYTE on checksum B (R110). -/
theorem Rx.Received.stepChecksumB (h : r.Received r0 bs) (hr : RxByteRule Config.machine b r r')
    (hlen : bs.length = frameLen bs + 5) (hs : r.rxState = .waitChecksumB) : r'.Received r0 (bs ++ [b]) := by
  obtain rfl := hr.unique (.waitChecksumB hs)
  refine h.stepBody hr (by omega) (by omega) (by rw [hlen, receiveState_complete]; rfl) ?_ ?_ ?_ fun k => ?_
  · rw [List.take_append_of_le_length (by omega)]
    exact h.acc_eq
  · rw [getD_concat_of_ne (by omega)]
    exact h.ckRxA_eq
  · rw [← hlen, getD_concat_length]
    rfl
  · rw [payloadOf_append_of_le _ (by omega)]
    exact h.read?_pb k

/-- RX_BYTE takes the next byte of the frame, whatever it is (R104 to R110). -/
theorem Rx.Received.step (h : r.Received r0 bs) (hlt : Incomplete bs) (hr : RxByteRule Config.machine b r r') :
    r'.Received r0 (bs ++ [b]) := by
  obtain h4 | h4 := Nat.lt_or_ge bs.length 4
  · exact h.stepHeader hr h4
  · obtain ⟨hp, hs⟩ | ⟨hA, hs⟩ | ⟨hB, hs⟩ := h.body_cases h4 (by omega)
    · exact h.stepPayload hr h4 hp hs
    · exact h.stepChecksumA hr hA hs
    · exact h.stepChecksumB hr hB hs

/-- The bytes of a frame one after the other. -/
theorem Rx.Received.bytes {cs : List Byte} (h : r.Received r0 bs) (hw : WithinFrame (bs ++ cs))
    (hrun : rxBytes cs r = some r') : r'.Received r0 (bs ++ cs) := by
  induction cs generalizing bs r with
  | nil =>
    cases hrun
    rwa [List.append_nil]
  | cons b cs ih =>
    obtain ⟨u, hu, hrun⟩ := Option.bind_eq_some_iff.1 hrun
    have hstep := (h.step hw.incomplete (rxByteStep_eq_some_iff.1 hu)).withDone false
    rw [List.append_cons] at hw ⊢
    exact ih hstep hw hrun

end Receiving

/-! ### Runs of cycles that receive -/

theorem runCycles_keeps_inv {rs : List InRecord} {s t : State} (h : runCycles rs s = .next t) (hs : s.Inv) :
    t.Inv := by
  induction rs generalizing s with
  | nil =>
    cases h
    exact hs
  | cons r rs ih =>
    obtain ⟨u, hu, h⟩ := andThen_eq_next h
    exact ih h (cycle_keeps_inv hu hs)

/-- A run from the acceptance of a sync pair on receives its bytes as a frame, in whatever cycles they come. -/
theorem exists_run_received {rs : List InRecord} {s : State} (hs : s.Inv) (hclass : s.rx.rxState = .waitClass)
    (hrs : ∀ r ∈ rs, r.ReceivesOn) (hw : WithinFrame (receivedBytes rs)) :
    ∃ t, runCycles rs s = .next t ∧ t.rx.Received s.rx (receivedBytes rs) := by
  obtain ⟨t, hrun, -, hbytes⟩ := runCycles_receives rs s hs.legal hrs
  have hcleared : s.rx.Cleared := by
    have hfits : s.rx.RecordFits Config.machine := hs.1.1
    simpa only [Rx.RecordFits, hclass] using hfits
  have hstart : Rx.Received s.rx s.rx [] := hcleared.received hclass rfl rfl
  exact ⟨t, hrun, ((hstart.withDone false).bytes hw hbytes).withDone t.rx.rxDone⟩

/-- Settles O47: the position of the framer behind the bytes received. -/
theorem frameTakesExactlyItsLength : Obligations.FrameTakesExactlyItsLength := by
  intro rs s hs hclass hrs bs len hw
  obtain ⟨t, hrun, ht⟩ := exists_run_received hs hclass hrs hw
  refine ⟨t, hrun, ht.count_toNat, ht.inFrame_eq_true, fun _ => ht.len_toNat, fun _ hlen => ⟨?_, ?_⟩⟩
  · exact ht.state_eq.trans ((congrArg _ hlen).trans (receiveState_complete len))
  · rw [ht.count_toNat, ht.len_toNat]
    exact hlen

/-- The sync pair of a frame, from a state that scans for it (R102, R103, R111). -/
theorem rxBytes_sync {r : Rx} (hs : r.rxState = .waitSync1 ∨ r.rxState = .complete) (bs : List Byte) :
    rxBytes (0xB5 :: 0x62 :: bs) r = rxBytes bs { clearFrame r with rxState := .waitClass, rxDone := false } := by
  have hscan : rxByteStep Config.machine 0xB5 r = some { r with rxState := .waitSync2 } :=
    rxByteStep_eq_some_iff.2 (.scan hs)
  rw [rxBytes_cons, hscan]
  rfl

/-- A run from a state that scans for sync receives a whole frame behind its sync pair. -/
theorem exists_run_frame {rs : List InRecord} {s : State} {bs : List Byte} (hs : s.Inv)
    (hscan : s.rx.rxState = .waitSync1 ∨ s.rx.rxState = .complete) (hrs : ∀ r ∈ rs, r.ReceivesOn)
    (hbs : receivedBytes rs = 0xB5 :: 0x62 :: bs) (hw : WithinFrame bs) :
    ∃ t, runCycles rs s = .next t ∧ t.Inv ∧ t.rx.Received s.rx bs := by
  obtain ⟨t, hrun, -, hbytes⟩ := runCycles_receives rs s hs.legal hrs
  rw [hbs, rxBytes_sync (r := { s.rx with rxDone := false }) hscan] at hbytes
  have hstart : Rx.Received { clearFrame s.rx with rxState := .waitClass, rxDone := false } s.rx [] :=
    Rx.Cleared.received rfl rfl rfl rfl
  exact ⟨t, hrun, runCycles_keeps_inv hrun hs, (hstart.bytes hw hbytes).withDone t.rx.rxDone⟩

/-! ### Whole frames -/

/-- The bytes behind the sync pair of a frame with checksum bytes `a` and `b`. -/
abbrev framedBytes (cls id : Byte) (p : List Byte) (a b : Byte) : List Byte := frameBody cls id p ++ [a, b]

section Framed

variable {cls id a b : Byte} {p : List Byte}

theorem framedBytes_length : (framedBytes cls id p a b).length = p.length + 6 := by
  rw [List.length_append, frameBody_length]
  rfl

/-- The two length bytes of a frame give its payload's length (R61, R92). -/
theorem frameLen_framedBytes (hp : p.length ≤ 65535) : frameLen (framedBytes cls id p a b) = p.length := by
  show (highByte (BitVec.ofNat 16 p.length)).toNat * 256 + (lowByte (BitVec.ofNat 16 p.length)).toNat = p.length
  rw [highByte_toNat, lowByte_toNat, BitVec.toNat_ofNat]
  omega

theorem payloadOf_framedBytes (hp : p.length ≤ 65535) : payloadOf (framedBytes cls id p a b) = p := by
  rw [payloadOf, frameLen_framedBytes hp]
  exact List.take_left

theorem withinFrame_framedBytes (hp : p.length ≤ 65535) : WithinFrame (framedBytes cls id p a b) :=
  .inr (by rw [framedBytes_length, frameLen_framedBytes hp])

variable {r r0 : Rx} (h : r.Received r0 (framedBytes cls id p a b)) (hp : p.length ≤ 65535)
include h hp

theorem Rx.Received.rxState_eq_complete : r.rxState = .complete := by
  rw [h.state_eq, framedBytes_length, frameLen_framedBytes hp, receiveState_complete]

theorem Rx.Received.pktLen_toNat_eq_length : r.pktLen.toNat = p.length := h.len_toNat.trans (frameLen_framedBytes hp)

theorem Rx.Received.storedCount_eq : storedCount Config.machine r =
    min (p.length - r0.startSpot.toNat) Config.machine.cap := by
  rw [storedCount, h.pktLen_toNat_eq_length hp, h.spot_eq]

/-- The payload bytes from the starting spot on, up to `stored_count`, are in the buffer (R112). -/
theorem Rx.Received.read?_pb_of_lt {k : Nat} (hk : k < storedCount Config.machine r) :
    r.pb.read? k = p[r0.startSpot.toNat + k]? := by
  rw [h.storedCount_eq hp] at hk
  rw [h.read?_pb, payloadOf_framedBytes hp, if_pos (by omega), List.getElem?_eq_getElem (by omega), Option.some_or]

/-- No other byte of the buffer was written (R112). -/
theorem Rx.Received.read?_pb_of_ge {k : Nat} (hk : storedCount Config.machine r ≤ k) :
    r.pb.read? k = r0.pb.read? k := by
  rw [h.storedCount_eq hp] at hk
  rw [h.read?_pb, payloadOf_framedBytes hp]
  split
  · rw [List.getElem?_eq_none (by omega), Option.none_or]
  · rfl

/-- Behind a whole frame the record is judged (R110). -/
theorem Rx.Received.judged (hinv : r.Inv Config.machine) : r.Judged Config.machine := by
  have hfits : r.RecordFits Config.machine := hinv.1
  simpa only [Rx.RecordFits, h.rxState_eq_complete hp] using hfits

theorem Rx.Received.overwritten_eq_true_iff (hinv : r.Inv Config.machine) :
    r.overwritten = true ↔ Config.machine.cap < p.length - r0.startSpot.toNat := by
  obtain ⟨-, -, hover, -⟩ := h.judged hp hinv
  rw [hover, overwrittenAtCompletion, decide_eq_true_iff, h.pktLen_toNat_eq_length hp, h.spot_eq]
  omega

/-- A frame with the checksum of its covered bytes is valid (R93, R110). -/
theorem Rx.Received.validity_eq_valid (hinv : r.Inv Config.machine) (hck : (a, b) = compute (frameBody cls id p)) :
    r.validity = .valid := by
  have hlen := frameBody_length cls id p
  have hacc : (r.ckAccA, r.ckAccB) = (a, b) := by
    rw [h.acc_eq, frameLen_framedBytes hp, hck, List.take_left' hlen]
  have hA : r.ckRxA = a := by
    rw [h.ckRxA_eq, frameLen_framedBytes hp, List.getD_append_right _ _ _ _ hlen.le, hlen, Nat.sub_self]
    rfl
  have hB : r.ckRxB = b := by
    rw [h.ckRxB_eq, frameLen_framedBytes hp, List.getD_append_right _ _ _ _ (by omega), hlen, Nat.add_sub_add_left]
    rfl
  obtain ⟨haccA, haccB⟩ := Prod.ext_iff.1 hacc
  obtain ⟨-, hvalid, -⟩ := h.judged hp hinv
  rw [hvalid, validityAtCompletion, if_pos ((verify_eq_true_iff _ _).2 ⟨haccA.trans hA.symm, haccB.trans hB.symm⟩)]

end Framed

/-- Settles O48: the buffer behind the frame's last byte, whatever its checksum bytes. -/
theorem completedFrameStoresItsPayload : Obligations.CompletedFrameStoresItsPayload := by
  intro cls id a b p rs s hs hp hscan hrs hbytes
  obtain ⟨t, hrun, -, ht⟩ := exists_run_frame hs hscan hrs hbytes (withinFrame_framedBytes hp)
  exact ⟨t, hrun, ht.rxState_eq_complete hp, ht.storedCount_eq hp, fun _ => ht.read?_pb_of_lt hp,
    fun _ => ht.read?_pb_of_ge hp⟩

/-- A run that receives the bytes of `Frame(cls, id, p)` ends behind a valid frame (R115, R116). -/
theorem exists_run_valid_frame {cls id : Byte} {p : List Byte} {rs : List InRecord} {s : State} (hs : s.Inv)
    (hp : p.length ≤ 65535) (hscan : s.rx.rxState = .waitSync1 ∨ s.rx.rxState = .complete)
    (hrs : ∀ r ∈ rs, r.ReceivesOn) (hbytes : receivedBytes rs = frame cls id p) :
    ∃ t, runCycles rs s = .next t ∧ t.Inv ∧ t.rx.validity = .valid ∧ t.rx.Received s.rx
      (framedBytes cls id p (compute (frameBody cls id p)).1 (compute (frameBody cls id p)).2) := by
  obtain ⟨t, hrun, hinv, ht⟩ := exists_run_frame hs hscan hrs (hbytes.trans (frame_eq cls id p))
    (withinFrame_framedBytes hp)
  exact ⟨t, hrun, hinv, ht.validity_eq_valid hp hinv.1 rfl, ht⟩

/-- Settles O49: with the starting spot 0 a payload that fits is stored whole. -/
theorem receivedFrameRoundTrips : Obligations.ReceivedFrameRoundTrips := by
  intro cls id p rs s hs hcap hscan hspot hrs hbytes
  have hspot0 : s.rx.startSpot.toNat = 0 := by rw [hspot]; rfl
  have hp : p.length ≤ 65535 := hcap.trans (by decide)
  obtain ⟨t, hrun, hinv, hvalid, ht⟩ := exists_run_valid_frame hs hp hscan hrs hbytes
  have hcount := ht.storedCount_eq hp
  have hover := ht.overwritten_eq_true_iff hp hinv.1
  refine ⟨t, hrun, ht.rxState_eq_complete hp, ht.class_eq, ht.id_eq, ht.pktLen_toNat_eq_length hp, fun k hk => ?_,
    hvalid, ?_⟩
  · rw [ht.read?_pb_of_lt hp (by omega), hspot0, Nat.zero_add]
  · rw [Bool.eq_false_iff, Ne, hover]
    omega

/-- Settles O50: with the starting spot 0 the first `CAP` bytes of a longer payload are stored. -/
theorem oversizedFrameCompletesValid : Obligations.OversizedFrameCompletesValid := by
  intro cls id p rs s hs hcap hp hscan hspot hrs hbytes
  have hspot0 : s.rx.startSpot.toNat = 0 := by rw [hspot]; rfl
  obtain ⟨t, hrun, hinv, hvalid, ht⟩ := exists_run_valid_frame hs hp hscan hrs hbytes
  have hcount : storedCount Config.machine t.rx = Config.machine.cap := by
    rw [ht.storedCount_eq hp]
    omega
  refine ⟨t, hrun, ht.rxState_eq_complete hp, hvalid, (ht.overwritten_eq_true_iff hp hinv.1).2 (by omega),
    ht.count_toNat.trans framedBytes_length, hcount, fun k hk => ?_⟩
  rw [ht.read?_pb_of_lt hp (by omega), hspot0, Nat.zero_add]

end Sys2Proof.Machine

/-! The classifier: its three answers, when a completing byte runs it, and the byte of a cycle with an ARM
(spec/42_classifier.md R130 to R135). -/

namespace Sys2Proof.Machine

/-! ### A byte in the cycle of an ARM -/

/-- With an ARM a cycle leaves the re-armed receive side, scanned once by the byte if there is one (R135). -/
theorem rxCycle_of_arm {f : InFields} {r r' : Rx} (h : rxCycle f r = some r') (ha : f.arm = true) :
    r' = { armStep f.armClass f.armId f.armSpot r with
      rxDone := false
      rxState := if f.rxValid = true ∧ f.rxData = 0xB5 then .waitSync2 else .waitSync1 } := by
  have hcases := rxCycle_cases h
  rw [rxArmed_of_arm ha] at hcases
  rcases hcases with ⟨hv, rfl⟩ | ⟨hv, hb⟩
  · simp only [hv, Bool.false_eq_true, false_and, if_false]
    rfl
  · rw [hb.unique (.scan (.inl rfl))]
    simp only [hv, true_and]
    rfl

/-- Settles O22: the re-armed framer has a cleared record, and the scan of its byte replaces `rx_state` alone. -/
theorem armedByteCannotCompleteAFrame : Obligations.ArmedByteCannotCompleteAFrame := by
  intro r s hs hr hq hrst ha
  obtain ⟨t, ht, -⟩ := cycle_of_legal_word hs hr hq.1
  obtain ⟨-, -, hrun⟩ := cycle_next_sides ht
  have hrx := rxCycle_of_arm (hrun hrst).1 ha
  exact ⟨t, ht, by rw [hrx], by rw [hrx]; rfl, by rw [hrx]; rfl, by rw [hrx]⟩

/-! ### The verdict of a pair -/

section Classify

variable {c : Config} {cls id rc ri : Byte}

theorem classify_of_requested (h : cls = rc ∧ id = ri) : classify c cls id rc ri = .valid := if_pos h

theorem classify_of_nack (h : ¬ (cls = rc ∧ id = ri)) (hnack : cls = c.ackClass ∧ id = c.nackId) :
    classify c cls id rc ri = .notAcknowledged := (if_neg h).trans (if_pos hnack)

theorem classify_of_unrelated (h : ¬ (cls = rc ∧ id = ri)) (hnack : ¬ (cls = c.ackClass ∧ id = c.nackId)) :
    classify c cls id rc ri = .notValid := (if_neg h).trans (if_neg hnack)

/-- `Classify` always judges: it never answers `NotDefined` (R131). -/
theorem classify_mem (c : Config) (cls id rc ri : Byte) :
    classify c cls id rc ri ∈ [Verdict.valid, .notValid, .notAcknowledged] := by
  by_cases h : cls = rc ∧ id = ri
  · simp [classify_of_requested h]
  · by_cases hnack : cls = c.ackClass ∧ id = c.nackId
    · simp [classify_of_nack h hnack]
    · simp [classify_of_unrelated h hnack]

end Classify

/-- Settles O20: the three branches of `Classify`, in the order in which it tests them. -/
theorem classifierTestsTheRequestFirst : Obligations.ClassifierTestsTheRequestFirst := fun _ _ _ _ _ =>
  ⟨classify_of_requested, classify_of_nack, classify_of_unrelated⟩

/-! ### The completing byte -/

/-- Settles O21: the completion of O19 behind the pulse clearing, by whether the checksum matches. -/
theorem classifierRunsOnlyOnValidFrames : Obligations.ClassifierRunsOnlyOnValidFrames := by
  intro b s hs hB
  obtain ⟨v, m, hexec, hvalid, hnotValid, hunarmed, hjudged⟩ :=
    checksumBCompletesTheFrame b (clearPulses s) (by simpa using hs) hB
  refine ⟨_, (cycle_encode_rxByte b s).trans hexec, ?_⟩
  by_cases hok : s.rx.ckAccA = s.rx.ckRxA ∧ s.rx.ckAccB = b
  · refine ⟨.inl (hvalid hok), fun hn => ?_, hunarmed, fun _ hreq => ?_⟩
    · exact absurd ((hvalid hok).symm.trans hn) (by decide)
    · have hm := hjudged hok hreq
      exact ⟨hm, hm ▸ classify_mem ..⟩
  · obtain ⟨hv, hm⟩ := hnotValid hok
    exact ⟨.inr hv, fun _ => hm, fun _ => hm, fun hn => absurd (hv.symm.trans hn) (by decide)⟩

end Sys2Proof.Machine

/-! The control operations RESET, ARM and IDLE, READ_STATUS, and the order and the pulses of a cycle
(spec/43_control.md R140 to R146). -/

namespace Sys2Proof.Machine

/-! ### The operations in a state without reserved codes -/

section Exec

variable {s : State}

theorem exec_reset_of_legal (hs : s.legal = true) :
    exec .reset s = .next { s with rx := Rx.reset, tx := Tx.reset } := guardReserved_of_legal _ hs

theorem exec_arm_of_legal (cls id : Byte) (spot : Half) (hs : s.legal = true) :
    exec (.arm cls id spot) s = .next { s with rx := armStep cls id spot s.rx } := guardReserved_of_legal _ hs

theorem exec_idle_of_legal (hs : s.legal = true) : exec .idle s = .next (clearPulses s) :=
  guardReserved_of_legal _ hs

theorem exec_readStatus_of_legal (hs : s.legal = true) :
    exec .readStatus s = .next { s with host := { s.host with status := some (statusOutputs s) } } :=
  guardReserved_of_legal _ hs

/-- RESET overwrites what the pulse clearing clears (R140, R144). -/
theorem exec_reset_clearPulses (hs : s.legal = true) : exec .reset (clearPulses s) = exec .reset s := by
  rw [exec_reset_of_legal hs, exec_reset_of_legal ((legal_clearPulses s).trans hs)]
  rfl

end Exec

/-! ### The cycle of one instruction -/

/-- A strobed instruction alone in its cycle runs after the pulse clearing (R143, R144). -/
theorem cycle_encode_of_strobed {i : Instr} (hi : i.wf = true) (hp : ∀ a, i ≠ .readPayload a)
    (hst : i ≠ .readStatus) (s : State) : cycle (encode i) s = exec i (clearPulses s) := by
  rw [cycle, decodeRecord_encode hi]
  cases i with
  | readPayload a => exact absurd rfl (hp a)
  | readStatus => exact absurd rfl hst
  | reset | arm | rxByte | txStart | txStep | idle => exact andThen_next_eq _

/-- A read alone in its cycle comes before the edge, at which IDLE runs (R44, R71). -/
theorem cycle_encode_of_read {i : Instr} (hi : i.wf = true) (hread : (∃ a, i = .readPayload a) ∨ i = .readStatus)
    (s : State) : cycle (encode i) s = andThen (exec i s) fun u => exec .idle (clearPulses u) := by
  have hreads : soloReads i = [i] := by obtain ⟨a, rfl⟩ | rfl := hread <;> rfl
  have hops : Laws.Fields.soloOps i = [.idle] := by obtain ⟨a, rfl⟩ | rfl := hread <;> rfl
  simp only [cycle, decodeRecord_encode hi, hreads, hops, runOps_cons, runOps_nil_eq, andThen_next_eq]

/-- The step on a scripted record is its cycle, the script and the cycle number moved on (R2). -/
theorem step_of_inputs {s : State} {r : InRecord} {rs : List InRecord} (h : s.host.inputs = r :: rs) :
    step s = cycle r { s with host := { s.host with inputs := rs, cycle := s.host.cycle + 1 } } := by
  simp only [step, State.nextInput, State.consumeInput, h, List.tail_cons]

/-- Settles O37: the step is the cycle of the scripted record, which runs what the record decodes to. -/
theorem stepRunsTheDecodedInstruction : Obligations.StepRunsTheDecodedInstruction := by
  refine ⟨fun s r rs d h hd => ?_, fun s i rs h hi hp hst => ?_, fun s i rs h hi hread => ?_⟩
  · rw [step_of_inputs h, cycle, hd]
  · rw [step_of_inputs h, cycle_encode_of_strobed hi hp hst]
  · rw [step_of_inputs h, cycle_encode_of_read hi hread]

/-! ### The order of a cycle -/

theorem execIf_of_false {b : Bool} (h : b = false) (i : Instr) (s : State) : execIf b i s = .next s := by
  rw [h]
  rfl

/-- Where the pulses are cleared already, the IDLE of a cycle without strobes does nothing more, so the strobed
operations run in order whether or not there are any (R142, R143). -/
theorem runOps_strobed_clearPulses {f : InFields} (hr : f.rst = false) {s : State} (hs : s.legal = true) :
    runOps (strobedOps f) (clearPulses s) =
      andThen (execIf f.arm (.arm f.armClass f.armId f.armSpot) (clearPulses s)) fun s1 =>
      andThen (execIf f.rxValid (.rxByte f.rxData) s1) fun s2 =>
      andThen (execIf f.txStart (.txStart f.txClass f.txId f.txLen) s2)
        fun s3 => execIf f.txStep (.txStep f.txPay) s3 := by
  rw [runOps_strobed hr]
  split
  · rfl
  · rename_i hnone
    simp only [Bool.or_eq_true, not_or, Bool.not_eq_true] at hnone
    obtain ⟨⟨⟨harm, hrx⟩, hstart⟩, hstep⟩ := hnone
    rw [exec_idle_of_legal ((legal_clearPulses s).trans hs), clearPulses_clearPulses]
    simp only [execIf_of_false harm, execIf_of_false hrx, execIf_of_false hstart, execIf_of_false hstep,
      andThen_next]

/-- A quiet cycle under `rst` is RESET, whatever its other fields (R76, R140). -/
theorem cycle_of_rst {r : InRecord} {s : State} (hs : s.legal = true) (hl : r.Legal) (hq : r.Quiet)
    (hr : (unpackIn r.word).rst = true) : cycle r s = exec .reset s := by
  rw [cycle_quiet hl hq.1 hq.2, strobedOps, if_pos hr, runOps_cons, runOps_nil_eq, andThen_next_eq,
    exec_reset_clearPulses hs]

/-- Settles O38: under `rst` the cycle is RESET; otherwise its strobed operations run in order after the pulse
clearing. -/
theorem cycleAppliesStrobesInOrder : Obligations.CycleAppliesStrobesInOrder := by
  intro r s hs hl hq f
  cases hr : f.rst
  · rw [cycle_quiet hl hq.1 hq.2, runOps_strobed_clearPulses hr hs]
    rfl
  · exact cycle_of_rst hs hl hq hr

/-! ### The pulses -/

section Pulses

variable {f : InFields} {r r' : Rx} {t t' : Tx}

theorem RxByteRule.rxDone_iff {c : Config} {b : Byte} (h : RxByteRule c b r r') (hd : r.rxDone = false) :
    r'.rxDone = true ↔ r.rxState = .waitChecksumB := by
  constructor
  · intro hd'
    by_contra hs
    rw [h.rxDone_eq hs, hd] at hd'
    cases hd'
  · intro hs
    rw [h.unique (.waitChecksumB hs)]
    rfl

/-- An ARM of the same cycle sends the framer back before the byte could complete a frame (R135). -/
theorem rxArmed_waitChecksumB_iff :
    (rxArmed f r).rxState = .waitChecksumB ↔ f.arm = false ∧ r.rxState = .waitChecksumB := by
  cases ha : f.arm
  · simp [rxArmed_of_not_arm ha]
  · simp [rxArmed_of_arm ha]

theorem rxCycle_rxDone_iff (h : rxCycle f r = some r') :
    r'.rxDone = true ↔ f.rxValid = true ∧ f.arm = false ∧ r.rxState = .waitChecksumB := by
  rcases rxCycle_cases h with ⟨hv, rfl⟩ | ⟨hv, hb⟩
  · simp [hv]
  · rw [hb.rxDone_iff (rxArmed_rxDone f r), rxArmed_waitChecksumB_iff]
    simp [hv]

/-- TX_STEP emits a byte in every state but `TxIdle` (R161 to R171). -/
theorem TxStepRule.txOutValid_iff {c : Config} {p : Byte} (h : TxStepRule c p t t') (hv : t.txOutValid = false) :
    t'.txOutValid = true ↔ t.txState ≠ .txIdle := by
  cases h with
  | txIdle hs => simp [hv, hs]
  | txSync1 hs | txSync2 hs | txClass hs | txId hs | txLenL hs | txLenHEmpty hs | txLenHPayload hs
  | txPayload hs | txCkA hs | txCkB hs => simp [hs, txInTxPayload]

theorem TxStepRule.txDone_iff {c : Config} {p : Byte} (h : TxStepRule c p t t') (hd : t.txDone = false) :
    t'.txDone = true ↔ t.txState = .txCkB := by
  constructor
  · intro hd'
    by_contra hs
    rw [h.txDone_eq hs, hd] at hd'
    cases hd'
  · intro hs
    rw [← txStepStep_eq_some_iff, txStepStep, hs] at h
    rw [← Option.some.inj h]

/-- A TX_STEP that emits nothing changes nothing (R162). -/
theorem TxStepRule.eq_of_not_txOutValid {c : Config} {p : Byte} (h : TxStepRule c p t t')
    (hv : t.txOutValid = false) (hv' : t'.txOutValid = false) : t' = t := by
  refine h.eq_of_txIdle ?_
  by_contra hs
  simp [(h.txOutValid_iff hv).2 hs] at hv'

/-- Whether there is a frame to emit at the turn of TX_STEP: the one a TX_START of the cycle began, or the one in
progress (R160). -/
theorem txStarted_txState_ne_txIdle_iff : (txStarted f t).txState ≠ .txIdle ↔
    if f.txStart = true then f.txLen.toNat ≤ Config.machine.cap else t.txState ≠ .txIdle := by
  cases hs : f.txStart
  · simp [txStarted_of_not_txStart hs]
  · rw [txStarted_of_txStart hs, if_pos rfl]
    rcases Nat.lt_or_ge Config.machine.cap f.txLen.toNat with hgt | hle
    · simp [txStartStep_of_gt _ _ _ hgt, hgt]
    · simp [txStartStep_of_le _ _ _ hle, hle]

/-- A TX_START of the cycle abandons the frame that was about to end (R160). -/
theorem txStarted_txCkB_iff :
    (txStarted f t).txState = .txCkB ↔ f.txStart = false ∧ t.txState = .txCkB := by
  cases hs : f.txStart
  · simp [txStarted_of_not_txStart hs]
  · rw [txStarted_of_txStart hs, txStartStep]
    split <;> simp

theorem txStarted_txOutData (f : InFields) (t : Tx) : (txStarted f t).txOutData = t.txOutData := by
  unfold txStarted
  split
  · exact (txStartStep_output _ _ _ _ _).2.1
  · rfl

theorem txCycle_txOutValid_iff (h : txCycle f t = some t') : t'.txOutValid = true ↔ f.txStep = true ∧
    (if f.txStart = true then f.txLen.toNat ≤ Config.machine.cap else t.txState ≠ .txIdle) := by
  rcases txCycle_cases h with ⟨hp, rfl⟩ | ⟨hp, hrule⟩
  · simp [hp, txStarted_txOutValid]
  · rw [hrule.txOutValid_iff (txStarted_txOutValid f t), txStarted_txState_ne_txIdle_iff, and_iff_right hp]

theorem txCycle_txDone_iff (h : txCycle f t = some t') :
    t'.txDone = true ↔ f.txStep = true ∧ f.txStart = false ∧ t.txState = .txCkB := by
  rcases txCycle_cases h with ⟨hp, rfl⟩ | ⟨hp, hrule⟩
  · simp [hp, txStarted_txDone]
  · rw [hrule.txDone_iff (txStarted_txDone f t), txStarted_txCkB_iff, and_iff_right hp]

theorem txCycle_txOutData_eq (h : txCycle f t = some t') (hv : t'.txOutValid = false) :
    t'.txOutData = t.txOutData := by
  rcases txCycle_cases h with ⟨-, rfl⟩ | ⟨-, hrule⟩
  · exact txStarted_txOutData f t
  · rw [hrule.eq_of_not_txOutValid (txStarted_txOutValid f t) hv, txStarted_txOutData]

end Pulses

/-- Settles O39: the pulses are clear at the turns of RX_BYTE and TX_STEP, and the rules of those two say when each is
set. -/
theorem pulsesLastOneCycle : Obligations.PulsesLastOneCycle := by
  intro r s t h hr f
  obtain ⟨-, -, hrun⟩ := cycle_next_sides h
  obtain ⟨hrx, htx⟩ := hrun hr
  exact ⟨rxCycle_rxDone_iff hrx, txCycle_txOutValid_iff htx, txCycle_txDone_iff htx, txCycle_txOutData_eq htx⟩

/-! ### Fields without their strobe -/

/-- Of a strobe that is 0 the operation does not matter. -/
theorem strobe_congr {b c : Bool} {i j : Instr} (hb : b = c) (hi : b = true → i = j) :
    (if b then [i] else []) = if c then [j] else [] := by
  subst hb
  exact if_ctx_congr Iff.rfl (fun h => by rw [hi h]) fun _ => rfl

/-- `f` and `g` select the same operations with the same operands (R146): they agree on `rst` and, without it, on the
strobes and on the fields of the strobes that are set. -/
theorem strobedOps_congr {f g : InFields} (hrst : f.rst = g.rst)
    (h : f.rst = false →
      f.arm = g.arm ∧ f.rxValid = g.rxValid ∧ f.txStart = g.txStart ∧ f.txStep = g.txStep ∧
      (f.arm = true → f.armClass = g.armClass ∧ f.armId = g.armId ∧ f.armSpot = g.armSpot) ∧
      (f.rxValid = true → f.rxData = g.rxData) ∧
      (f.txStart = true → f.txClass = g.txClass ∧ f.txId = g.txId ∧ f.txLen = g.txLen) ∧
      (f.txStep = true → f.txPay = g.txPay)) : strobedOps f = strobedOps g := by
  cases hf : f.rst
  · obtain ⟨harm, hvalid, hstart, hstep, harmOps, hdata, hstartOps, hpay⟩ := h hf
    have hA := strobe_congr harm fun ha : f.arm = true =>
      show Instr.arm f.armClass f.armId f.armSpot = .arm g.armClass g.armId g.armSpot by simp [harmOps ha]
    have hB := strobe_congr hvalid fun hv => congrArg Instr.rxByte (hdata hv)
    have hS := strobe_congr hstart fun hs : f.txStart = true =>
      show Instr.txStart f.txClass f.txId f.txLen = .txStart g.txClass g.txId g.txLen by simp [hstartOps hs]
    have hP := strobe_congr hstep fun hp => congrArg Instr.txStep (hpay hp)
    simp only [strobedOps, ← hrst, hA, hB, hS, hP]
  · rw [strobedOps, strobedOps, if_pos hf, if_pos (hrst ▸ hf)]

/-- Settles O40: an illegal `rd_addr` is common to both words and refuses both; with legal ones the reads agree, and so
do the strobed operations. -/
theorem unstrobedFieldsHaveNoEffect : Obligations.UnstrobedFieldsHaveNoEffect := by
  intro f g tp ts s haddr hrst hfields
  rcases Nat.lt_or_ge f.rdAddr.toNat Config.machine.cap with hlt | hge
  · have hlt' : g.rdAddr.toNat < Config.machine.cap := by
      obtain e | ⟨-, -, hg⟩ := haddr
      · exact e ▸ hlt
      · exact hg
    have hreads : readOps ⟨packIn f, tp, ts⟩ = readOps ⟨packIn g, tp, ts⟩ := by
      simp only [readOps, unpackIn_packIn]
      obtain e | ⟨rfl, -, -⟩ := haddr
      · rw [e]
      · rfl
    rw [cycle, cycle, decodeRecord_of_lt (by simpa using hlt), decodeRecord_of_lt (by simpa using hlt'), hreads,
      unpackIn_packIn, unpackIn_packIn, strobedOps_congr hrst hfields]
  · have e : f.rdAddr = g.rdAddr := haddr.resolve_right fun ⟨_, hf, _⟩ => Nat.not_lt.2 hge hf
    rw [cycle_of_cap_le s (by simpa using hge), cycle_of_cap_le s (by simpa [← e] using hge), unpackIn_packIn,
      unpackIn_packIn, e]

/-! ### RESET -/

/-- Every operation but RESET keeps an armed request (R22). -/
theorem exec_keeps_reqValid {i : Instr} {s t : State} (hi : i ≠ .reset) (h : exec i s = .next t)
    (hv : s.rx.reqValid = true) : t.rx.reqValid = true := by
  cases i with
  | reset => exact absurd rfl hi
  | arm cls id spot => rw [exec_arm_next h]; rfl
  | rxByte b =>
    obtain ⟨r, hr, rfl⟩ := exec_rxByte_next h
    obtain ⟨-, -, hkeep, -⟩ := hr.request_eq
    exact hkeep.trans hv
  | txStart cls id len => rw [exec_txStart_next h]; exact hv
  | txStep p => obtain ⟨u, -, rfl⟩ := exec_txStep_next h; exact hv
  | idle => rw [exec_idle_next h]; exact hv
  | readPayload a => obtain ⟨v, rfl⟩ := exec_readPayload_next h; exact hv
  | readStatus => rw [exec_readStatus_next h]; exact hv

/-- Settles O2: RESET writes the reset sides, a quiet cycle under `rst` is RESET, and no other operation disarms. -/
theorem resetWritesEveryRegister : Obligations.ResetWritesEveryRegister :=
  ⟨fun _ hs => exec_reset_of_legal hs, fun _ _ hs hl hq hr => cycle_of_rst hs hl hq hr,
    fun _ _ _ => exec_keeps_reqValid⟩

/-! ### ARM -/

section Spot

variable {r : Rx} (h : r.pktLen.toNat ≤ r.startSpot.toNat)
include h

theorem storedCount_eq_zero_of_pktLen_le (c : Config) : storedCount c r = 0 := by
  rw [storedCount, Nat.sub_eq_zero_of_le h, Nat.zero_min]

theorem overwrittenAtCompletion_of_pktLen_le (c : Config) : overwrittenAtCompletion c r = false :=
  decide_eq_false fun ⟨hgt, _⟩ => Nat.not_lt.2 h hgt

/-- Every payload byte comes before the starting spot (R108). -/
theorem storeAddr?_eq_none_of_pktLen_le (c : Config) (hi : payloadIndex r < (r.pktLen.toNat : Int)) :
    storeAddr? c r = none :=
  (storeAddr?_eq_none_iff c r).2 (.inl (by omega))

end Spot

/-- Settles O3: the update of ARM, alone and behind the pulse clearing, and what a spot beyond the length leaves to
store. -/
theorem armRestartsTheReceiver : Obligations.ArmRestartsTheReceiver := by
  refine ⟨fun cls id spot s hs => ?_, fun cls id spot s hs => ?_, fun r h => ?_⟩
  · rw [exec_arm_of_legal cls id spot hs, armStep, spotOf_eq]
    rfl
  · rw [cycle_encode_of_strobed rfl (by simp) (by simp),
      exec_arm_of_legal cls id spot ((legal_clearPulses s).trans hs)]
    exact ⟨_, rfl, rfl, rfl⟩
  · exact ⟨storedCount_eq_zero_of_pktLen_le h _, overwrittenAtCompletion_of_pktLen_le h _,
      storeAddr?_eq_none_of_pktLen_le h _⟩

/-! ### IDLE -/

/-- Settles O4: IDLE is the pulse clearing, which the cycle around it has done before. -/
theorem idleOnlyClearsThePulses : Obligations.IdleOnlyClearsThePulses := by
  refine ⟨fun s hs => exec_idle_of_legal hs, fun s hs => ?_⟩
  rw [cycle_encode_of_strobed rfl (by simp) (by simp), exec_idle_of_legal hs,
    exec_idle_of_legal ((legal_clearPulses s).trans hs), clearPulses_clearPulses]

/-! ### READ_STATUS -/

/-- The states inside a frame have the codes 2 to 8 (R33, R67). -/
theorem inFrame_eq_decide_code (r : Rx) :
    inFrame r = decide (2 ≤ r.rxState.code.toNat ∧ r.rxState.code.toNat ≤ 8) := by
  unfold inFrame
  cases r.rxState with
  | waitSync1 | waitSync2 | waitClass | waitId | waitLen1 | waitLen2 | waitPayload | waitChecksumA
  | waitChecksumB | complete => rfl
  | reserved k => revert k; decide

/-- Settles O5: the outputs are the registers as they stand; only `in_frame` is written by codes rather than states. -/
theorem readStatusGivesEveryOutput : Obligations.ReadStatusGivesEveryOutput := by
  intro s hs
  refine ⟨statusOutputs s, exec_readStatus_of_legal hs, ?_⟩
  rw [statusOutputs, inFrame_eq_decide_code]
  rfl

end Sys2Proof.Machine

/-! TX_START and TX_STEP as operations, state by state, and where the payload byte is read (spec/44_tx_framer.md R160 to
R171, R174). -/

namespace Sys2Proof.Machine

/-! ### TX_START -/

theorem exec_txStart_of_legal (cls id : Byte) (len : Half) {s : State} (hs : s.legal = true) :
    exec (.txStart cls id len) s = .next { s with tx := txStartStep Config.machine cls id len s.tx } :=
  guardReserved_of_legal _ hs

/-- Settles O23: the two outcomes of TX_START, by whether the length exceeds `CAP`. -/
theorem txStartChecksTheLength : Obligations.TxStartChecksTheLength := by
  intro cls id len s hs
  rw [exec_txStart_of_legal cls id len hs]
  exact ⟨fun hgt => by rw [txStartStep_of_gt cls id s.tx hgt], fun hle => by rw [txStartStep_of_le cls id s.tx hle]⟩

/-! ### TX_STEP -/

/-- In a state without reserved codes TX_STEP is the rule that its `tx_state` selects (R161). -/
theorem exec_txStep_of_rule {p : Byte} {s : State} {t : Tx} (hs : s.legal = true)
    (ht : TxStepRule Config.machine p s.tx t) : exec (.txStep p) s = .next { s with tx := t } := by
  obtain ⟨t', ht', hexec⟩ := execTxStep_of_legal p hs
  rw [hexec, Option.some.inj (ht'.symm.trans (txStepStep_eq_some_iff.2 ht))]

/-- Settles O24: the rules of `TxIdle` and of the two sync states. -/
theorem txStepEmitsTheSyncBytes : Obligations.TxStepEmitsTheSyncBytes := fun _ _ hs =>
  ⟨fun h => exec_txStep_of_rule hs (.txIdle h), fun h => exec_txStep_of_rule hs (.txSync1 h),
    fun h => exec_txStep_of_rule hs (.txSync2 h)⟩

theorem lowByte_eq_ofNat (v : Half) : lowByte v = BitVec.ofNat 8 (v.toNat % 256) := by
  rw [← lowByte_toNat, BitVec.ofNat_toNat, BitVec.setWidth_eq]

theorem highByte_eq_ofNat (v : Half) : highByte v = BitVec.ofNat 8 (v.toNat / 256) := by
  rw [← highByte_toNat, BitVec.ofNat_toNat, BitVec.setWidth_eq]

/-- Settles O25: one rule per header byte; behind the length the two rules of `TxLenH`, by whether it is 0. -/
theorem txStepEmitsTheHeader : Obligations.TxStepEmitsTheHeader := by
  intro p s hs lo hi acc
  have hlo : lowByte s.tx.txLen = lo := lowByte_eq_ofNat _
  have hhi : highByte s.tx.txLen = hi := highByte_eq_ofNat _
  refine ⟨fun h => exec_txStep_of_rule hs (.txClass h), fun h => exec_txStep_of_rule hs (.txId h),
    fun h => ?_, fun h => ?_⟩
  · rw [← hlo]
    exact exec_txStep_of_rule hs (.txLenL h)
  · rw [← hhi]
    split
    · rename_i h0
      exact exec_txStep_of_rule hs (.txLenHEmpty h (BitVec.eq_of_toNat_eq h0))
    · rename_i h0
      exact exec_txStep_of_rule hs (.txLenHPayload h fun e => h0 (congrArg BitVec.toNat e))

/-- Settles O26: the rules of the payload and of the two checksum bytes. -/
theorem txStepEmitsPayloadAndChecksum : Obligations.TxStepEmitsPayloadAndChecksum := fun _ _ hs =>
  ⟨fun h => exec_txStep_of_rule hs (.txPayload h), fun h => exec_txStep_of_rule hs (.txCkA h),
    fun h => exec_txStep_of_rule hs (.txCkB h)⟩

/-! ### Where `tx_pay` is read -/

/-- Outside `TxPayload` no rule of TX_STEP names the payload byte. -/
theorem txStepStep_congr_pay {t : Tx} (h : t.txState ≠ .txPayload) (c : Config) (p p' : Byte) :
    txStepStep c p t = txStepStep c p' t := by
  unfold txStepStep
  split
  case h_8 hs => exact absurd hs h
  all_goals rfl

theorem exec_txStep_congr_pay {s : State} (h : s.tx.txState ≠ .txPayload) (p p' : Byte) :
    exec (.txStep p) s = exec (.txStep p') s := by
  simp only [exec, execTxStep, txStepStep_congr_pay h Config.machine p p']

/-- A TX_START leaves no frame in its payload: it begins one, or refuses (R160). -/
theorem txStartStep_ne_txPayload (c : Config) (cls id : Byte) (len : Half) (t : Tx) :
    (txStartStep c cls id len t).txState ≠ .txPayload := by
  unfold txStartStep
  split <;> simp

theorem andThen_congr {o : Host.Outcome State Fault Refusal} {f g : State → Host.Outcome State Fault Refusal}
    (h : ∀ t, o = .next t → f t = g t) : andThen o f = andThen o g := by
  cases o with
  | next t => exact h t rfl
  | fault e | refused e => rfl

/-- At the turn of TX_STEP the state is not `TxPayload`: the operations before it keep `tx_state`, or a TX_START
has replaced it (R143, R160). -/
theorem runOps_strobed_congr_pay {f : InFields} {s : State} (hr : f.rst = false) (hstep : f.txStep = true)
    (h : f.txStart = false → s.tx.txState ≠ .txPayload) (p p' : Byte) :
    runOps (strobedOps { f with txPay := p }) s = runOps (strobedOps { f with txPay := p' }) s := by
  have hany : (f.arm || f.rxValid || f.txStart || f.txStep) = true := by simp [hstep]
  rw [runOps_strobed (f := { f with txPay := p }) hr, runOps_strobed (f := { f with txPay := p' }) hr, if_pos hany,
    if_pos hany]
  refine andThen_congr fun s1 h1 => andThen_congr fun s2 h2 => andThen_congr fun s3 h3 => ?_
  have hturn : s3.tx.txState ≠ .txPayload := by
    obtain rfl := execIf_arm_next h1
    obtain ⟨-, htx, -⟩ := execIf_rxByte_next h2
    rw [execIf_txStart_next h3, htx]
    cases hs : f.txStart
    · exact h hs
    · exact txStartStep_ne_txPayload _ _ _ _ _
  simp only [execIf, hstep, if_true, exec_txStep_congr_pay hturn p p']

/-- Two words with one `rd_addr` make the same of a cycle where their strobed operations do, behind the reads (R143). -/
theorem cycle_congr_strobed {f g : InFields} {tp ts : Bool} {s : State} (haddr : f.rdAddr = g.rdAddr)
    (h : ∀ u, u.tx = s.tx → runOps (strobedOps f) (clearPulses u) = runOps (strobedOps g) (clearPulses u)) :
    cycle ⟨packIn f, tp, ts⟩ s = cycle ⟨packIn g, tp, ts⟩ s := by
  have hreads : readOps ⟨packIn f, tp, ts⟩ = readOps ⟨packIn g, tp, ts⟩ := by
    simp only [readOps, unpackIn_packIn, haddr]
  rcases Nat.lt_or_ge g.rdAddr.toNat Config.machine.cap with hlt | hge
  · rw [cycle, cycle, decodeRecord_of_lt (by simpa [haddr] using hlt), decodeRecord_of_lt (by simpa using hlt)]
    simp only [hreads, unpackIn_packIn]
    exact andThen_congr fun u hu => h u (readOps_frame hu).2
  · rw [cycle_of_cap_le s (by simpa [haddr] using hge), cycle_of_cap_le s (by simpa using hge), unpackIn_packIn,
      unpackIn_packIn, haddr]

/-- Settles O27: without a TX_STEP the payload byte is a field without its strobe (O40); with one, the state at its
turn is not `TxPayload`. -/
theorem txPayMattersOnlyInPayload : Obligations.TxPayMattersOnlyInPayload := by
  refine ⟨fun p p' s h => exec_txStep_congr_pay h p p', fun f p p' tp ts s h => ?_⟩
  by_cases hstep : f.rst = false ∧ f.txStep = true
  · obtain ⟨hr, hstep⟩ := hstep
    refine cycle_congr_strobed rfl fun u hu => runOps_strobed_congr_pay hr hstep (fun hs => ?_) p p'
    rw [clearPulses_tx, hu]
    exact h hstep hr hs
  · refine unstrobedFieldsHaveNoEffect _ _ tp ts s (.inl rfl) rfl fun hr => ?_
    exact ⟨rfl, rfl, rfl, rfl, fun _ => ⟨rfl, rfl, rfl⟩, fun _ => rfl, fun _ => ⟨rfl, rfl, rfl⟩,
      fun hp => absurd ⟨hr, hp⟩ hstep⟩

end Sys2Proof.Machine

/-! The frame as a whole: what a TX_START and its TX_STEPs emit in whatever cycles they come, and what comes back where
the output is wired to the receive input (spec/44_tx_framer.md R172, R175). -/

namespace Sys2Proof.Machine

/-! ### Any schedule of TX_STEPs -/

/-- The bytes of a whole frame's TX_STEPs carry the payload if the seventh and following do (R172). -/
theorem carries_of_drop_take {p bs : List Byte} (h : (bs.drop 6).take p.length = p) : Carries p 0 bs := by
  intro j _ hge hlt
  rw [Nat.zero_add] at hge hlt ⊢
  have hpay : p[j - 6]? = ((bs.drop 6).take p.length)[j - 6]? := by rw [h]
  rw [hpay, List.getElem?_take_of_lt hlt, List.getElem?_drop, Nat.add_sub_of_le hge]

/-- Settles O56: the cycle of the TX_START sends the first part of the frame, empty or one byte, and the later cycles
send the rest. -/
theorem transmittedBytesAreTheFrame : Obligations.TransmittedBytesAreTheFrame := by
  intro cls id p r rs s hs hcap hsmooth hstart hcls hid hlen hrs hcount hpay
  obtain ⟨hr, hsmooth⟩ := List.forall_mem_cons.1 hsmooth
  obtain ⟨u, hu⟩ := exists_sends_start hs hr hstart hcls hid hlen hcap
  have hsplit : suppliedBytes (r :: rs) = suppliedBytes [r] ++ suppliedBytes rs := suppliedBytes_append [r] rs
  have hcarries := carries_of_drop_take hpay
  rw [hsplit] at hcarries
  have hsum : 0 + (suppliedBytes [r]).length + (suppliedBytes rs).length = p.length + 8 := by
    rw [← hcount, hsplit, List.length_append, Nat.zero_add]
  obtain ⟨t, ht⟩ := exists_sends hu.legal (fun q hq => ⟨hsmooth q hq, hrs q hq⟩) hu.sending hsum.le
    hcarries.of_append.2
  have hall : Sends cls id p 0 (r :: rs) s t := hu.append ht
  refine ⟨t, hall.run_eq, ?_, ?_⟩
  · rw [hall.emitted_eq, hcount, List.drop_zero, List.take_of_length_le (frame_length cls id p).le]
  · rw [hall.sending.state_eq, hcount]
    simp [sendState]

/-! ### Loopback -/

/-- The line strobes no operation of the receive side and reads nothing: in loopback its byte received is the
output's. -/
structure Line.TransmitsOnly (l : Line) : Prop where
  rst_eq : l.rst = false
  arm_eq : l.arm = none
  readAt_eq : l.readAt = none

theorem Line.TransmitsOnly.receivesOn {l : Line} (h : l.TransmitsOnly) (o : Option Byte) :
    (Line.record { l with rx := o }).ReceivesOn := by
  obtain ⟨hrst, harm, hread⟩ := h
  refine ⟨⟨record_legal ?_, ?_, ?_⟩, ?_⟩
  · simp [hread]
  · simp [Line.record, hread]
  · simp [Line.fields, hrst]
  · simp [Line.fields, harm]

theorem send_transmitsOnly {cls id : Byte} {p : List Byte} {l : Line} (h : l ∈ send cls id p) :
    l.TransmitsOnly := by
  simp only [send, List.mem_cons, List.mem_append, List.mem_replicate, List.mem_map] at h
  obtain rfl | (⟨-, rfl⟩ | ⟨b, -, rfl⟩) | ⟨-, rfl⟩ := h <;> exact ⟨rfl, rfl, rfl⟩

theorem receivedBytes_append (rs rs' : List InRecord) :
    receivedBytes (rs ++ rs') = receivedBytes rs ++ receivedBytes rs' := List.filterMap_append

theorem receivedBytes_record (l : Line) : receivedBytes [l.record] = l.rx.toList := by
  cases h : l.rx <;> simp [receivedBytes, Line.fields, h]

theorem loopback_append (ls ls' : List Line) (s : State) :
    loopback (ls ++ ls') s = andThen (loopback ls s) (loopback ls') := by
  induction ls generalizing s with
  | nil => rfl
  | cons l ls ih =>
    rw [List.cons_append, loopback, loopback, andThen_assoc]
    exact andThen_congr fun u _ => ih u

/-- In loopback an IDLE line is the cycle that receives the byte on the output, if there is one. -/
theorem loopback_wait_one (s : State) : loopback (wait 1) s = cycle (Line.record { rx := outputByte s }) s :=
  andThen_next_eq _

/-- What the transmit side makes of a line does not depend on the byte it receives (R3, R175). -/
theorem cycle_record_tx {l : Line} {o : Option Byte} {s s' t t' : State} (htx : s.tx = s'.tx)
    (h : cycle (Line.record { l with rx := o }) s = .next t) (h' : cycle l.record s' = .next t') : t.tx = t'.tx := by
  have hsides := sidesShareNoState _ _ _ _ _ _ h h'
  simp only [unpackIn_record] at hsides
  exact (hsides rfl).2 htx rfl rfl rfl rfl rfl rfl

/-- The loopback of `ls` is the run of some records that go on receiving. Its transmit side is that of the plain run of
`ls`, and it receives each byte that the plain run emits one cycle later, the last one still to come (R175, R211). -/
theorem exists_loopback_records {ls : List Line} {s s' t' : State} (hs : s.legal = true)
    (hls : ∀ l ∈ ls, l.TransmitsOnly) (htx : s.tx = s'.tx) (h : runCycles (ls.map Line.record) s' = .next t') :
    ∃ rs t, loopback ls s = .next t ∧ runCycles rs s = .next t ∧ (∀ r ∈ rs, r.ReceivesOn) ∧ t.tx = t'.tx ∧
      receivedBytes rs ++ (outputByte t).toList =
        (outputByte s).toList ++ emittedBytes (ls.map Line.record) s' := by
  induction ls generalizing s s' with
  | nil =>
    cases h
    exact ⟨[], s, rfl, rfl, by simp, htx, by simp [receivedBytes, emittedBytes]⟩
  | cons l ls ih =>
    obtain ⟨hl, hls⟩ := List.forall_mem_cons.1 hls
    obtain ⟨u', hu', h⟩ := andThen_eq_next h
    have hr := hl.receivesOn (outputByte s)
    obtain ⟨u, hu, hul, -, -⟩ := cycle_of_smooth hs hr.1
    have hutx := cycle_record_tx htx hu hu'
    have hout : outputByte u = outputByte u' := by rw [outputByte, outputByte, hutx]
    obtain ⟨rs, t, hloop, hrun, hrs, ht, hbytes⟩ := ih hul hls hutx h
    refine ⟨_ :: rs, t, by rw [loopback, hu, andThen_next, hloop], by rw [runCycles_cons, hu, andThen_next, hrun],
      List.forall_mem_cons.2 ⟨hr, hrs⟩, ht, ?_⟩
    rw [← List.singleton_append, receivedBytes_append, receivedBytes_record, List.append_assoc, hbytes, hout,
      List.map_cons, emittedBytes, hu']

/-- A byte that leaves the framer in `Complete` is the one that completed the frame (R110, R111). -/
theorem RxByteRule.rxDone_of_complete {c : Config} {b : Byte} {r r' : Rx} (h : RxByteRule c b r r')
    (hc : r'.rxState = .complete) : r'.rxDone = true := by
  cases h
  case waitChecksumB => rfl
  case scan | waitLen2 | waitPayload =>
    simp only [rxScanSync1, rxInWaitLen2, rxInWaitPayload] at hc
    split at hc <;> cases hc
  all_goals cases hc

/-- The same for the cycle that takes the byte, its completion pulse cleared before (R143, R144). -/
theorem cycle_rxDone_of_complete {r : InRecord} {s t : State} (h : cycle r s = .next t)
    (hr : (unpackIn r.word).rst = false) (ha : (unpackIn r.word).arm = false)
    (hv : (unpackIn r.word).rxValid = true) (hc : t.rx.rxState = .complete) : t.rx.rxDone = true := by
  obtain ⟨-, -, hrun⟩ := cycle_next_sides h
  exact (rxCycle_byte (hrun hr).1 hv ha).rxDone_of_complete hc

/-- A cycle without TX_START and TX_STEP leaves `tx_state` as it is. -/
theorem cycle_txState_eq {r : InRecord} {s t : State} (h : cycle r s = .next t)
    (hr : (unpackIn r.word).rst = false) (hstart : (unpackIn r.word).txStart = false)
    (hstep : (unpackIn r.word).txStep = false) : t.tx.txState = s.tx.txState := by
  obtain ⟨-, -, hrun⟩ := cycle_next_sides h
  obtain ⟨-, hkeep⟩ | ⟨hn, -⟩ := txCycle_cases (hrun hr).2
  · rw [hkeep, txStarted_of_not_txStart hstart]
  · simp [hstep] at hn

/-- Settles O58: the plain run of SEND emits the frame and ends with checksum B on the output (O57); in loopback all
bytes but that one are received by then, the IDLE line takes it, and the whole frame comes back (O49). -/
theorem loopbackRoundTrips : Obligations.LoopbackRoundTrips := by
  intro cls id p s hs hcap hscan hspot hquiet
  obtain ⟨u', hplain, hemit, hidle, hdone, -⟩ := sendEmitsExactlyTheFrame cls id p s hs.legal hcap
  obtain ⟨rs, u, hloop, hrun, hrs, hutx, hbytes⟩ :=
    exists_loopback_records hs.legal (fun _ => send_transmitsOnly) rfl hplain
  have hvalid : u.tx.txOutValid = true := by
    obtain ⟨-, -, -, -, hpulse⟩ := runCycles_keeps_inv hrun hs
    exact (hpulse (hutx ▸ hdone)).2
  have hlast : outputByte u = some u.tx.txOutData := if_pos hvalid
  have hlegal : (Line.record { rx := outputByte u }).ReceivesOn :=
    (Line.TransmitsOnly.mk (l := {}) rfl rfl rfl).receivesOn _
  have hframe : receivedBytes (rs ++ [Line.record { rx := outputByte u }]) = frame cls id p := by
    rw [receivedBytes_append, receivedBytes_record, hbytes, hemit, outputByte, hquiet]
    rfl
  obtain ⟨t, hrunt, hcomplete, hcls, hid, hlen, hpay, hok, hover⟩ := receivedFrameRoundTrips cls id p _ s hs hcap
    hscan hspot (List.forall_mem_append.2 ⟨hrs, by simpa using hlegal⟩) hframe
  have hcycle : cycle (Line.record { rx := outputByte u }) u = .next t := by
    rw [runCycles_append, hrun, andThen_next, runCycles_cons] at hrunt
    exact (andThen_next_eq _).symm.trans hrunt
  refine ⟨t, ?_, hcomplete, ?_, hcls, hid, hlen, hpay, hok, hover, ?_⟩
  · rw [loopback_append, hloop, andThen_next, loopback_wait_one, hcycle]
  · exact cycle_rxDone_of_complete hcycle (by simp [Line.fields]) (by simp [Line.fields])
      (by simp [Line.fields, hlast]) hcomplete
  · rw [cycle_txState_eq hcycle (by simp [Line.fields]) (by simp [Line.fields]) (by simp [Line.fields]), hutx, hidle]

end Sys2Proof.Machine

/-! What the block's status reports after a completing cycle (spec/60_exceptions.md R181, R182, R184). -/

namespace Sys2Proof.Machine

/-! ### The verdict of a completed frame -/

/-- What a completed frame leaves in `validity` and `match` (R110, R131): a mismatch and a frame nobody asked for are
not classified, a valid requested frame always is. -/
inductive CompletionVerdict (r : Rx) : Prop
  | mismatch (hv : r.validity = .notValid) (hm : r.matchReg = .notDefined)
  | unrequested (hreq : r.reqValid = false) (hv : r.validity = .valid) (hm : r.matchReg = .notDefined)
  | classified (hreq : r.reqValid = true) (hv : r.validity = .valid)
      (hm : r.matchReg ∈ [Verdict.valid, .notValid, .notAcknowledged])

theorem Rx.Judged.completionVerdict {c : Config} {r : Rx} (h : r.Judged c) : CompletionVerdict r := by
  obtain ⟨-, hv, -, hm⟩ := h
  cases hok : verify r r.ckRxB
  · exact .mismatch (by simp [hv, validityAtCompletion, hok]) (by simp [hm, matchAtCompletion, hok])
  · have hvalid : r.validity = .valid := by simp [hv, validityAtCompletion, hok]
    cases hreq : r.reqValid
    · exact .unrequested hreq hvalid (by simp [hm, matchAtCompletion, hreq])
    · have hclass : r.matchReg = classify c r.pktClass r.pktId r.reqClass r.reqId := by
        simp [hm, matchAtCompletion, hok, hreq]
      exact .classified hreq hvalid (hclass ▸ classify_mem ..)

/-- No request armed, `match` stays `NotDefined` (R131). -/
theorem CompletionVerdict.matchReg_of_unrequested {r : Rx} (h : CompletionVerdict r) (hreq : r.reqValid = false) :
    r.matchReg = .notDefined := by
  cases h with
  | mismatch _ hm | unrequested _ _ hm => exact hm
  | classified harmed => simp [hreq] at harmed

/-- The completion pulse stands over a completed frame (R21). -/
theorem State.Inv.judged_of_rxDone {s : State} (h : s.Inv) (hd : s.rx.rxDone = true) :
    s.rx.Judged Config.machine := by
  obtain ⟨⟨hfit, -, -, hpulse⟩, -⟩ := h
  simpa only [Rx.RecordFits, hpulse hd] using hfit

/-- A payload that passes the buffer's end also passes the starting spot, so the test of R110 needs its second half
only. -/
theorem overwrittenAtCompletion_eq_true_iff (c : Config) (r : Rx) :
    overwrittenAtCompletion c r = true ↔ r.pktLen.toNat - r.startSpot.toNat > c.cap := by
  rw [overwrittenAtCompletion, decide_eq_true_iff]
  omega

/-! ### The outcomes -/

section Outcomes

variable {s : State}

/-- A request armed, the verdict names one of the four outcomes of R182 and no second. -/
theorem CompletionVerdict.exactly_one_outcome (h : CompletionVerdict s.rx) (hd : s.rx.rxDone = true)
    (hreq : s.rx.reqValid = true) :
    ([ReportedOutcome.dataReceivedOrSent, .commandNack, .crcFail, .discard].filter (reports s)).length = 1 := by
  cases h with
  | mismatch hv hm => simp [reports, hd, hv, hm]
  | unrequested hnone => simp [hreq] at hnone
  | classified _ hv hm =>
    simp only [List.mem_cons, List.not_mem_nil, or_false] at hm
    obtain hm | hm | hm := hm <;> simp [reports, hd, hv, hm]

/-- X3 and X4 exclude X1: only a valid frame is classified (R181, R184). -/
theorem CompletionVerdict.not_mismatch_of_classified (h : CompletionVerdict s.rx)
    (hx : (conditions s).negativeAcknowledge = true ∨ (conditions s).unrelatedFrame = true) :
    (conditions s).checksumMismatch = false := by
  cases h with
  | mismatch _ hm => simp [conditions, hm] at hx
  | unrequested _ hv | classified _ hv => simp [conditions, hv]

end Outcomes

/-- Settles O55: the completion pulse stands over a judged record, whose verdict is one of three. -/
theorem completionReportsOneOutcome : Obligations.CompletionReportsOneOutcome := by
  intro s hs hd
  have hj := hs.judged_of_rxDone hd
  have hverdict := hj.completionVerdict
  obtain ⟨-, -, hover, -⟩ := hj
  refine ⟨hverdict.exactly_one_outcome hd, fun hreq => ?_, hverdict.not_mismatch_of_classified, ?_⟩
  · have hm := hverdict.matchReg_of_unrequested hreq
    simp [reports, conditions, hd, hm]
  · rw [reports, hd, Bool.true_and, hover]
    exact overwrittenAtCompletion_eq_true_iff _ _

end Sys2Proof.Machine

/-! The receiver out of RESET, how long a completed frame's record can be read, and the frame behind a doubled sync byte
(spec/70_reset_and_hazards.md R201, R203, R205). -/

namespace Sys2Proof.Machine

/-! ### The state after RESET -/

/-- Settles O43: each side meets its invariant at reset. -/
theorem resetMeetsTheInvariant : Obligations.ResetMeetsTheInvariant := ⟨Rx.reset_inv, Tx.reset_inv⟩

/-- Settles O1: the reset values, the scan of the first byte, and a completion with no request armed (O19). -/
theorem resetStateHoldsTheSpecValues : Obligations.ResetStateHoldsTheSpecValues := by
  refine ⟨rfl, rfl, rfl, rfl, rfl, rfl, rfl, rfl, rfl, rfl, fun _ => rfl,
    fun _ => exec_rxByte_of_rule rfl (.scan (.inl rfl)), fun b s hs hB hreq => ?_⟩
  obtain ⟨v, m, hexec, -, -, hunarmed, -⟩ := checksumBCompletesTheFrame b s hs hB
  exact ⟨_, hexec, rfl, hunarmed hreq⟩

/-! ### The read window of a record -/

theorem rxScanSync1_of_eq {c : Config} {b : Byte} (h : b = c.sync1) (r : Rx) :
    rxScanSync1 c b r = { r with rxState := .waitSync2 } := by rw [rxScanSync1, if_pos h]

theorem rxScanSync1_of_ne {c : Config} {b : Byte} (h : b ≠ c.sync1) (r : Rx) :
    rxScanSync1 c b r = { r with rxState := .waitSync1 } := by rw [rxScanSync1, if_neg h]

/-- Outside a frame a byte that does not begin one moves `rx_state` between the two sync states and changes nothing
else (R102, R103, R111). -/
theorem RxByteRule.eq_sync_of_not_inFrame {c : Config} {b : Byte} {r r' : Rx} (h : RxByteRule c b r r')
    (hf : inFrame r = false) (hn : ¬ (r.rxState = .waitSync2 ∧ b = c.sync2)) :
    ∃ x ∈ [RxState.waitSync1, .waitSync2], r' = { r with rxState := x } := by
  cases h with
  | scan =>
    by_cases hb : b = c.sync1
    · exact ⟨.waitSync2, by simp, rxScanSync1_of_eq hb r⟩
    · exact ⟨.waitSync1, by simp, rxScanSync1_of_ne hb r⟩
  | sync2Accepted hs hb => exact absurd ⟨hs, hb⟩ hn
  | sync2Missed => exact ⟨.waitSync1, by simp, rfl⟩
  | waitClass hs | waitId hs | waitLen1 hs | waitLen2 hs | waitPayload hs | waitChecksumA hs
  | waitChecksumB hs => simp [inFrame, hs] at hf

/-- Settles O53: without RESET and ARM a cycle clears the pulse and takes at most one byte, which by the hypothesis
begins no frame. -/
theorem recordStaysReadable : Obligations.RecordStaysReadable := by
  intro r s t h hr ha hf hn
  obtain ⟨-, -, hrun⟩ := cycle_next_sides h
  obtain ⟨hrx, -⟩ := hrun hr
  cases hv : (unpackIn r.word).rxValid
  · have hkeep := (noAbortInsideAFrame r s t h hr ha).2 hv
    rw [hkeep]
    exact ⟨hf, rfl, fun _ => nofun⟩
  · have hb := rxCycle_byte hrx hv ha
    obtain ⟨x, hx, hkeep⟩ := hb.eq_sync_of_not_inFrame hf fun ⟨hs, h62⟩ => hn ⟨hv, hs, h62⟩
    simp only [List.mem_cons, List.not_mem_nil, or_false] at hx
    rw [hkeep]
    refine ⟨?_, rfl, fun _ _ => hx⟩
    obtain rfl | rfl := hx <;> rfl

/-! ### A doubled sync byte -/

/-- After any cycle the completion pulse stands over `Complete` alone, whatever state the cycle began in (R21, R144). -/
theorem cycle_complete_of_rxDone {r : InRecord} {s t : State} (h : cycle r s = .next t) (hd : t.rx.rxDone = true) :
    t.rx.rxState = .complete := by
  obtain ⟨-, hreset, hrun⟩ := cycle_next_sides h
  cases hr : (unpackIn r.word).rst
  · obtain ⟨hrx, -⟩ := hrun hr
    rcases rxCycle_cases hrx with ⟨-, hkeep⟩ | ⟨-, hb⟩
    · simp [hkeep] at hd
    · exact hb.complete_of_rxDone (rxArmed_rxDone _ _) hd
  · obtain ⟨hrx, -⟩ := hreset hr
    rw [hrx] at hd
    cases hd

theorem runCycles_complete_of_rxDone {r : InRecord} {rs : List InRecord} {s t : State}
    (h : runCycles (r :: rs) s = .next t) (hd : t.rx.rxDone = true) : t.rx.rxState = .complete := by
  induction rs generalizing r s with
  | nil =>
    obtain ⟨u, hu, h⟩ := andThen_eq_next h
    cases h
    exact cycle_complete_of_rxDone hu hd
  | cons q rs ih =>
    obtain ⟨u, -, h⟩ := andThen_eq_next h
    exact ih h

/-- A byte other than 0xB5 leaves a scanning framer where it is, so any number of them does (R102). -/
theorem rxBytes_noise {bs : List Byte} (h : 0xB5 ∉ bs) (r : Rx) :
    rxBytes bs { r with rxState := .waitSync1, rxDone := false } =
      some { r with rxState := .waitSync1, rxDone := false } := by
  induction bs with
  | nil => rfl
  | cons b bs ih =>
    have hb : b ≠ Config.machine.sync1 := (List.ne_of_not_mem_cons h).symm
    have hscan : rxByteStep Config.machine b { r with rxState := .waitSync1, rxDone := false } =
        some { r with rxState := .waitSync1, rxDone := false } :=
      congrArg some (rxScanSync1_of_ne hb _)
    rw [rxBytes_cons, hscan]
    exact ih (List.not_mem_of_not_mem_cons h)

/-- The second 0xB5 sends the framer back to `WaitSync1` (R103), and so the 0x62 behind it is noise. -/
theorem rxBytes_doubled_sync {r : Rx} {bs : List Byte} (hs : r.rxState = .waitSync1 ∨ r.rxState = .complete)
    (hbs : 0xB5 ∉ bs) :
    rxBytes ([0xB5, 0xB5, 0x62] ++ bs) r = some { r with rxState := .waitSync1, rxDone := false } := by
  have hscan : rxByteStep Config.machine 0xB5 r = some { r with rxState := .waitSync2 } :=
    rxByteStep_eq_some_iff.2 (.scan hs)
  have hnoise : 0xB5 ∉ 0x62 :: bs := List.not_mem_cons_of_ne_of_not_mem (by decide) hbs
  calc rxBytes (0xB5 :: 0xB5 :: 0x62 :: bs) r
    _ = rxBytes (0xB5 :: 0x62 :: bs) { r with rxState := .waitSync2, rxDone := false } := by
      rw [rxBytes_cons, hscan, Option.bind_some]
    _ = rxBytes (0x62 :: bs) { r with rxState := .waitSync1, rxDone := false } := rfl
    _ = some { r with rxState := .waitSync1, rxDone := false } := rxBytes_noise hnoise r

/-- Settles O51: the run is the fold over its bytes, and it ends in `WaitSync1`, over which no pulse stands. -/
theorem doubledSyncByteMissesTheFrame : Obligations.DoubledSyncByteMissesTheFrame := by
  intro rest rs s hs hscan hrest hrs hbs
  obtain ⟨t, hrun, -, hbytes⟩ := runCycles_receives rs s hs hrs
  rw [hbs, rxBytes_doubled_sync (r := { s.rx with rxDone := false }) hscan hrest] at hbytes
  have hrx : { t.rx with rxDone := false } = { s.rx with rxState := .waitSync1, rxDone := false } :=
    (Option.some.inj hbytes).symm
  have hstate : t.rx.rxState = .waitSync1 := congrArg Rx.rxState hrx
  have hdone : t.rx.rxDone = false := by
    cases rs with
    | nil => cases hbs
    | cons r rs =>
      refine Bool.eq_false_iff.2 fun hd => ?_
      rw [runCycles_complete_of_rxDone hrun hd] at hstate
      cases hstate
  exact ⟨t, hrun, by rw [← hrx, ← hdone]⟩

end Sys2Proof.Machine
